-- ==== Sys2Proof/Word.lean ====
section
/-! DEFINITION. The words of the machine: 8-bit data, 16-bit words and addresses, and the operand fields of an
instruction word (spec 00_scope.md R8, R17; 30_encoding.md R82). -/

namespace Sys2Proof

/-- An 8-bit datum: a general register, a timer, a memory byte (R8). -/
abbrev Byte := BitVec 8

/-- A 16-bit word: an instruction word, PC, I, a return address (R8). -/
abbrev Word := BitVec 16

/-- Four bits of an instruction word: the family, a sub-opcode or a row count (R82). -/
abbrev Nibble := BitVec 4

/-- The number of a general register V0 to VF (R20). -/
abbrev RegIx := BitVec 4

/-- The 12-bit address field nnn (R82). -/
abbrev Addr12 := BitVec 12

end Sys2Proof
end

