-- ==== Sys2Proof/Syntax.lean ====
section
/-! DEFINITION. The instructions: one constructor per row of spec/opcode_table.json, in the table's order
(30_encoding.md R84). Operand fields are those of R82. -/

namespace Sys2Proof

/-- One instruction. The comment gives the word pattern and the rule of its meaning. -/
inductive Instr where
  /-- 00E0 CLS (R110) -/
  | cls
  /-- 00EE RET (R111) -/
  | ret
  /-- 0nnn SYS nnn, every family 0 word but the two above (R112) -/
  | sys (nnn : Addr12)
  /-- 1nnn JP nnn (R113) -/
  | jp (nnn : Addr12)
  /-- 2nnn CALL nnn (R114) -/
  | call (nnn : Addr12)
  /-- 3xkk SE Vx, kk (R115) -/
  | seImm (x : RegIx) (kk : Byte)
  /-- 4xkk SNE Vx, kk (R116) -/
  | sneImm (x : RegIx) (kk : Byte)
  /-- 5xy0 SE Vx, Vy (R117) -/
  | seReg (x y : RegIx)
  /-- 6xkk LD Vx, kk (R130) -/
  | ldImm (x : RegIx) (kk : Byte)
  /-- 7xkk ADD Vx, kk (R131) -/
  | addImm (x : RegIx) (kk : Byte)
  /-- 8xy0 LD Vx, Vy (R132) -/
  | ldReg (x y : RegIx)
  /-- 8xy1 OR Vx, Vy (R133) -/
  | orReg (x y : RegIx)
  /-- 8xy2 AND Vx, Vy (R134) -/
  | andReg (x y : RegIx)
  /-- 8xy3 XOR Vx, Vy (R135) -/
  | xorReg (x y : RegIx)
  /-- 8xy4 ADD Vx, Vy (R136) -/
  | addReg (x y : RegIx)
  /-- 8xy5 SUB Vx, Vy (R137) -/
  | subReg (x y : RegIx)
  /-- 8xy6 SHR Vx, Vy (R143) -/
  | shr (x y : RegIx)
  /-- 8xy7 SUBN Vx, Vy (R138) -/
  | subnReg (x y : RegIx)
  /-- 8xyE SHL Vx, Vy (R145) -/
  | shl (x y : RegIx)
  /-- 9xy0 SNE Vx, Vy (R118) -/
  | sneReg (x y : RegIx)
  /-- Annn LD I, nnn (R150) -/
  | ldI (nnn : Addr12)
  /-- Bnnn JP V0, nnn (R152) -/
  | jpV0 (nnn : Addr12)
  /-- Cxkk RND Vx, kk (R160) -/
  | rnd (x : RegIx) (kk : Byte)
  /-- Dxyn DRW Vx, Vy, n (R168) -/
  | drw (x y : RegIx) (n : Nibble)
  /-- Ex9E SKP Vx (R180) -/
  | skp (x : RegIx)
  /-- ExA1 SKNP Vx (R181) -/
  | sknp (x : RegIx)
  /-- Fx07 LD Vx, DT (R185) -/
  | ldVxDt (x : RegIx)
  /-- Fx0A LD Vx, K (R188) -/
  | ldVxK (x : RegIx)
  /-- Fx15 LD DT, Vx (R186) -/
  | ldDtVx (x : RegIx)
  /-- Fx18 LD ST, Vx (R187) -/
  | ldStVx (x : RegIx)
  /-- Fx1E ADD I, Vx (R154) -/
  | addI (x : RegIx)
  /-- Fx29 LD F, Vx (R156) -/
  | ldF (x : RegIx)
  /-- Fx33 LD B, Vx (R191) -/
  | ldB (x : RegIx)
  /-- Fx55 LD [I], Vx (R196) -/
  | storeRegs (x : RegIx)
  /-- Fx65 LD Vx, [I] (R197) -/
  | loadRegs (x : RegIx)
  deriving DecidableEq, Repr

end Sys2Proof
end

