-- ==== Sys2Proof/Decode.lean ====
section
/-! DEFINITION. The fields of an instruction word, the decoder, the encoder and the opcode table as data
(spec/30_encoding.md R80 to R95, spec/opcode_table.json). -/

namespace Sys2Proof

/-- Big-endian: the byte at the lower address stands in bits 15:8 (20_memory.md R66). -/
def Word.ofBytes (hi lo : Byte) : Word := hi ++ lo

/-- Bits 15:8, the byte an instruction word has at the lower address (R66). -/
def Word.hiByte (w : Word) : Byte := w.extractLsb' 8 8

/-- Bits 7:0, the byte an instruction word has at the higher address (R66). -/
def Word.loByte (w : Word) : Byte := w.extractLsb' 0 8

/-- F = w[15:12], the opcode family (R82). -/
def Word.family (w : Word) : Nibble := w.extractLsb' 12 4

/-- x = w[11:8] (R82). -/
def Word.fieldX (w : Word) : Nibble := w.extractLsb' 8 4

/-- y = w[7:4] (R82). -/
def Word.fieldY (w : Word) : Nibble := w.extractLsb' 4 4

/-- n = w[3:0] (R82). -/
def Word.fieldN (w : Word) : Nibble := w.extractLsb' 0 4

/-- A word from its four nibbles, family first. -/
def Word.ofNibbles (f x y n : Nibble) : Word := f ++ x ++ y ++ n

/-- kk = y ∥ n (R82). -/
def fieldKK (y n : Nibble) : Byte := y ++ n

/-- nnn = x ∥ kk (R82). -/
def fieldNNN (x y n : Nibble) : Addr12 := x ++ y ++ n

/-- The upper nibble of an 8-bit field. -/
def Byte.hiNibble (b : Byte) : Nibble := b.extractLsb' 4 4

/-- The lower nibble of an 8-bit field. -/
def Byte.loNibble (b : Byte) : Nibble := b.extractLsb' 0 4

/-- Why a word is no instruction. Raised by `decode`; the step turns it into the error of 60_exceptions.md R202. -/
inductive DecodeError where
  /-- The word matches no row of the opcode map (R92). -/
  | notWellFormed
  deriving DecidableEq, Repr

/-- Family 0: the two exact words first, then SYS (R85). -/
def decodeFamily0 (nnn : Addr12) : Instr :=
  if nnn = 0x0E0#12 then .cls
  else if nnn = 0x0EE#12 then .ret
  else .sys nnn

/-- Family 8, by the sub-opcode n (R84); n in 8 to D and F is not well formed (R92). -/
def decodeFamily8 (x y n : Nibble) : Except DecodeError Instr :=
  match n.toNat with
  | 0x0 => .ok (.ldReg x y)
  | 0x1 => .ok (.orReg x y)
  | 0x2 => .ok (.andReg x y)
  | 0x3 => .ok (.xorReg x y)
  | 0x4 => .ok (.addReg x y)
  | 0x5 => .ok (.subReg x y)
  | 0x6 => .ok (.shr x y)
  | 0x7 => .ok (.subnReg x y)
  | 0xE => .ok (.shl x y)
  | _ => .error .notWellFormed

/-- Family E, by the sub-opcode kk (R84, R92). -/
def decodeFamilyE (x : Nibble) (kk : Byte) : Except DecodeError Instr :=
  match kk.toNat with
  | 0x9E => .ok (.skp x)
  | 0xA1 => .ok (.sknp x)
  | _ => .error .notWellFormed

/-- Family F, by the sub-opcode kk (R84, R92). -/
def decodeFamilyF (x : Nibble) (kk : Byte) : Except DecodeError Instr :=
  match kk.toNat with
  | 0x07 => .ok (.ldVxDt x)
  | 0x0A => .ok (.ldVxK x)
  | 0x15 => .ok (.ldDtVx x)
  | 0x18 => .ok (.ldStVx x)
  | 0x1E => .ok (.addI x)
  | 0x29 => .ok (.ldF x)
  | 0x33 => .ok (.ldB x)
  | 0x55 => .ok (.storeRegs x)
  | 0x65 => .ok (.loadRegs x)
  | _ => .error .notWellFormed

/-- Dispatch "by family then by distinguishing sub-nibble" (R84). -/
def decodeNibbles (f x y n : Nibble) : Except DecodeError Instr :=
  match f.toNat with
  | 0x0 => .ok (decodeFamily0 (fieldNNN x y n))
  | 0x1 => .ok (.jp (fieldNNN x y n))
  | 0x2 => .ok (.call (fieldNNN x y n))
  | 0x3 => .ok (.seImm x (fieldKK y n))
  | 0x4 => .ok (.sneImm x (fieldKK y n))
  | 0x5 => if n = 0x0#4 then .ok (.seReg x y) else .error .notWellFormed
  | 0x6 => .ok (.ldImm x (fieldKK y n))
  | 0x7 => .ok (.addImm x (fieldKK y n))
  | 0x8 => decodeFamily8 x y n
  | 0x9 => if n = 0x0#4 then .ok (.sneReg x y) else .error .notWellFormed
  | 0xA => .ok (.ldI (fieldNNN x y n))
  | 0xB => .ok (.jpV0 (fieldNNN x y n))
  | 0xC => .ok (.rnd x (fieldKK y n))
  | 0xD => .ok (.drw x y n)
  | 0xE => decodeFamilyE x (fieldKK y n)
  | _ => decodeFamilyF x (fieldKK y n) -- family 0xF, the last of the sixteen

/-- Decode reads nothing but the word and is total (R89). -/
def decode (w : Word) : Except DecodeError Instr :=
  decodeNibbles w.family w.fieldX w.fieldY w.fieldN

/-- Decode the two bytes of an instruction, lower address first (R80, R66). -/
def decodeBytes (first second : Byte) : Except DecodeError Instr :=
  decode (Word.ofBytes first second)

/-- A word of format NNN: family and address (R81). -/
def Word.ofNNN (f : Nibble) (nnn : Addr12) : Word := f ++ nnn

/-- A word of format XKK, or of format XOP with kk a sub-opcode (R81). -/
def Word.ofXKK (f x : Nibble) (kk : Byte) : Word := f ++ x ++ kk

/-- The word of an instruction (R81, R84). -/
def encode : Instr → Word
  | .cls => 0x00E0#16
  | .ret => 0x00EE#16
  | .sys nnn => Word.ofNNN 0x0#4 nnn
  | .jp nnn => Word.ofNNN 0x1#4 nnn
  | .call nnn => Word.ofNNN 0x2#4 nnn
  | .seImm x kk => Word.ofXKK 0x3#4 x kk
  | .sneImm x kk => Word.ofXKK 0x4#4 x kk
  | .seReg x y => Word.ofNibbles 0x5#4 x y 0x0#4
  | .ldImm x kk => Word.ofXKK 0x6#4 x kk
  | .addImm x kk => Word.ofXKK 0x7#4 x kk
  | .ldReg x y => Word.ofNibbles 0x8#4 x y 0x0#4
  | .orReg x y => Word.ofNibbles 0x8#4 x y 0x1#4
  | .andReg x y => Word.ofNibbles 0x8#4 x y 0x2#4
  | .xorReg x y => Word.ofNibbles 0x8#4 x y 0x3#4
  | .addReg x y => Word.ofNibbles 0x8#4 x y 0x4#4
  | .subReg x y => Word.ofNibbles 0x8#4 x y 0x5#4
  | .shr x y => Word.ofNibbles 0x8#4 x y 0x6#4
  | .subnReg x y => Word.ofNibbles 0x8#4 x y 0x7#4
  | .shl x y => Word.ofNibbles 0x8#4 x y 0xE#4
  | .sneReg x y => Word.ofNibbles 0x9#4 x y 0x0#4
  | .ldI nnn => Word.ofNNN 0xA#4 nnn
  | .jpV0 nnn => Word.ofNNN 0xB#4 nnn
  | .rnd x kk => Word.ofXKK 0xC#4 x kk
  | .drw x y n => Word.ofNibbles 0xD#4 x y n
  | .skp x => Word.ofXKK 0xE#4 x 0x9E#8
  | .sknp x => Word.ofXKK 0xE#4 x 0xA1#8
  | .ldVxDt x => Word.ofXKK 0xF#4 x 0x07#8
  | .ldVxK x => Word.ofXKK 0xF#4 x 0x0A#8
  | .ldDtVx x => Word.ofXKK 0xF#4 x 0x15#8
  | .ldStVx x => Word.ofXKK 0xF#4 x 0x18#8
  | .addI x => Word.ofXKK 0xF#4 x 0x1E#8
  | .ldF x => Word.ofXKK 0xF#4 x 0x29#8
  | .ldB x => Word.ofXKK 0xF#4 x 0x33#8
  | .storeRegs x => Word.ofXKK 0xF#4 x 0x55#8
  | .loadRegs x => Word.ofXKK 0xF#4 x 0x65#8

/-- The bytes of an instruction in memory, lower address first (R66). -/
def encodeBytes (i : Instr) : List Byte := [(encode i).hiByte, (encode i).loByte]

/-- The mask and the match of the instruction's row of spec/opcode_table.json: a word w belongs to the row when
`w &&& mask = match`. -/
def tableRow : Instr → Word × Word
  | .cls => (0xFFFF#16, 0x00E0#16)
  | .ret => (0xFFFF#16, 0x00EE#16)
  | .sys _ => (0xF000#16, 0x0000#16)
  | .jp _ => (0xF000#16, 0x1000#16)
  | .call _ => (0xF000#16, 0x2000#16)
  | .seImm _ _ => (0xF000#16, 0x3000#16)
  | .sneImm _ _ => (0xF000#16, 0x4000#16)
  | .seReg _ _ => (0xF00F#16, 0x5000#16)
  | .ldImm _ _ => (0xF000#16, 0x6000#16)
  | .addImm _ _ => (0xF000#16, 0x7000#16)
  | .ldReg _ _ => (0xF00F#16, 0x8000#16)
  | .orReg _ _ => (0xF00F#16, 0x8001#16)
  | .andReg _ _ => (0xF00F#16, 0x8002#16)
  | .xorReg _ _ => (0xF00F#16, 0x8003#16)
  | .addReg _ _ => (0xF00F#16, 0x8004#16)
  | .subReg _ _ => (0xF00F#16, 0x8005#16)
  | .shr _ _ => (0xF00F#16, 0x8006#16)
  | .subnReg _ _ => (0xF00F#16, 0x8007#16)
  | .shl _ _ => (0xF00F#16, 0x800E#16)
  | .sneReg _ _ => (0xF00F#16, 0x9000#16)
  | .ldI _ => (0xF000#16, 0xA000#16)
  | .jpV0 _ => (0xF000#16, 0xB000#16)
  | .rnd _ _ => (0xF000#16, 0xC000#16)
  | .drw _ _ _ => (0xF000#16, 0xD000#16)
  | .skp _ => (0xF0FF#16, 0xE09E#16)
  | .sknp _ => (0xF0FF#16, 0xE0A1#16)
  | .ldVxDt _ => (0xF0FF#16, 0xF007#16)
  | .ldVxK _ => (0xF0FF#16, 0xF00A#16)
  | .ldDtVx _ => (0xF0FF#16, 0xF015#16)
  | .ldStVx _ => (0xF0FF#16, 0xF018#16)
  | .addI _ => (0xF0FF#16, 0xF01E#16)
  | .ldF _ => (0xF0FF#16, 0xF029#16)
  | .ldB _ => (0xF0FF#16, 0xF033#16)
  | .storeRegs _ => (0xF0FF#16, 0xF055#16)
  | .loadRegs _ => (0xF0FF#16, 0xF065#16)

/-- The word of a table number: `nbits` bits of it, the bits above are zero. An instruction is one 16-bit word
(R80), so bit 0 of the number is bit 0 of the word. -/
def wordOfTable (nbits w : Nat) : Word := BitVec.ofNat 16 (w % 2 ^ nbits)

/-- The instruction the decoder reads from the table word's two bytes as memory holds them. -/
def decodeTableWord (nbits w : Nat) : Option Instr :=
  match decodeBytes (wordOfTable nbits w).hiByte (wordOfTable nbits w).loByte with
  | .ok i => some i
  | .error _ => none

end Sys2Proof
end

