-- ==== Sys2Proof/Config.lean ====
section
/-! DEFINITION. What is fixed for one machine: the sizes of 00_scope.md R8, the types of the construction-time
configuration and parameters (R9, R11, R13), and the values the spec leaves open, which are constants without a
body. -/

namespace Sys2Proof

/-- The two quirk toggles `cfg`, fixed at construction (00_scope.md R13, 10_state.md R36). -/
structure Cfg where
  shiftQuirk : Bool
  loadStoreQuirk : Bool
  deriving DecidableEq, Repr

/-- The parameter STACK_DEPTH (00_scope.md R9): a capacity, or the unbounded reading. -/
inductive StackDepth where
  | bounded (capacity : Nat)
  | unbounded
  deriving DecidableEq, Repr

/-- The parameter FX29_WIDE (00_scope.md R11). -/
inductive Fx29Wide where
  | unmasked
  | masked
  deriving DecidableEq, Repr

/-- The spec's parameters an instruction branches on. They are arguments of the construction and never change. -/
structure Params where
  stackDepth : StackDepth
  fx29Wide : Fx29Wide
  deriving DecidableEq, Repr

/-- 4096 bytes of memory (R8). -/
abbrev Config.memSize : Nat := 0x1000

/-- The framebuffer's width W (R8). -/
abbrev Config.width : Nat := 64

/-- The framebuffer's height H (R8). -/
abbrev Config.height : Nat := 32

/-- The program base address (R8, R64). -/
abbrev Config.programBase : Nat := 0x200

/-- The longest program image: 4096 - 512 bytes (R8). -/
abbrev Config.maxImage : Nat := 3584

/-- The byte the n-th execution of Cxkk draws (43_random.md R161): a free value, DESIGN CHOICE of its form,
log 7. Nothing constrains it. -/
opaque Config.randomByte : Nat → Byte

/-- PIXEL_OFF, the export byte of an off pixel (00_scope.md R12): OPEN, a free constant, log 8. -/
opaque Config.pixelOff : Byte

/-- PIXEL_ON, the export byte of an on pixel (00_scope.md R12): OPEN, a free constant, log 8. -/
opaque Config.pixelOn : Byte

end Sys2Proof
end

