-- ==== Sys2Proof/Machine/State.lean ====
section
/-! DEFINITION. The machine state, whole (10_state.md R20 to R40), the errors a step records (60_exceptions.md
R200), the model's fault and refusal reasons, and the state after reset (70_reset_and_hazards.md R231). -/

namespace Sys2Proof.Machine

/-- The errors of a step with the information each records (R200, codes 1 to 4, 6 and 7). A step that raises one
answers a next state holding it (R209, R211; log 1). -/
inductive StepError where
  /-- Raised by the fetch with PC > 0xFFE: the bad fetch address (R201). -/
  | invalidProgramCounter (pc : Word)
  /-- Raised by 00EE with an empty call stack: the address of the 00EE (R203). -/
  | callStackUnderflow (a : Word)
  /-- Raised by decode: the raw word and its address (R202, R92). -/
  | notWellFormedInstruction (w a : Word)
  /-- Raised by 0nnn: the raw word and its address (R202, R93). -/
  | unsupportedInstruction (w a : Word)
  /-- Raised by 2nnn with a full call stack: the address of the 2nnn (R206). -/
  | callStackOverflow (a : Word)
  /-- Raised by Dxyn, Fx33, Fx55 and Fx65: base address and byte count (R207, R68). -/
  | memoryAddressFault (base : Word) (n : Nat)
  deriving DecidableEq, Repr

/-- What a step answers to the host (00_scope.md R19, 10_state.md R45). -/
inductive StepResult where
  | ok
  | err (e : StepError)
  deriving DecidableEq, Repr

/-- Memory: the bytes that differ from what an unlisted address reads as, as (address, byte) pairs with strictly
rising addresses (20_memory.md R60; `Memory.wf` in Machine/Ops.lean). -/
abbrev Memory := List Host.Cell

/-- The pixel array: `fb[y][x]`, row y from the top, column x from the left, true for on (10_state.md R33). -/
abbrev Framebuffer := Vector (Vector Bool 64) 32

/-- The whole state (10_state.md R40), with the spec's parameters and the model's draw counter. -/
structure State where
  /-- M, the 4096 bytes of memory (R38). -/
  mem : Memory
  /-- V0 to VF (R20). -/
  v : Vector Byte 16
  /-- The index register I (R28). -/
  i : Word
  /-- PC: the fetch address at the start of a step, two more while the instruction executes (R25). -/
  pc : Word
  /-- The call stack S, its top last (R29, 00_scope.md R16). -/
  stack : List Word
  /-- The delay timer DT (R31). -/
  dt : Byte
  /-- The sound timer ST (R31). -/
  st : Byte
  /-- The framebuffer FB (R33). -/
  fb : Framebuffer
  /-- The key flags K, true meaning held (R35). -/
  keys : Vector Bool 16
  /-- The quirk toggles, fixed at construction (R36). -/
  cfg : Cfg
  /-- The sticky fault record (R40, 60_exceptions.md R209): the first error of the run (DEDUCED, log 2). -/
  faultRecord : Option StepError
  /-- The answer of the last step, which the host may read (R49); none before the first (DESIGN CHOICE, log 2). -/
  lastResult : Option StepResult
  /-- The spec's parameters STACK_DEPTH and FX29_WIDE (00_scope.md R9, R11), fixed at construction (logs 5, 6). -/
  params : Params
  /-- The MODEL'S own: how many random bytes were drawn; feeds the free value `Config.randomByte` (log 7). -/
  draws : Nat
  deriving DecidableEq, Repr

/-- Why no machine exists: the two errors of the construction (R200, codes 5 and 8). No step answers a fault. -/
inductive Fault where
  /-- Raised by `construct` when the host cannot read the image; the host's cause (R205, R233). Safe: there is no
  machine to claim anything of. -/
  | ioError (cause : String)
  /-- Raised by `construct` for an image longer than 3584 bytes; its length (R208, R233). Safe, as above. -/
  | programTooLarge (len : Nat)
  deriving DecidableEq, Repr

/-- Why a step gives no meaning. -/
inductive Refusal where
  /-- Raised by an arm of `exec` for an instruction without a meaning; no arm does (safe). -/
  | notModelled (mnemonic : String)
  deriving DecidableEq, Repr

/-- What a step or a construction answers. -/
abbrev Result := Host.Outcome State Fault Refusal

/-- The machine right after a construction from an empty image with the spec's default parameters (R231, R233; the zero
values: log 3).
Memory lists nothing: every address reads as its reset content (`Memory.unlisted`). `cfg` has no reset value of
its own (R36): both toggles false is a DESIGN CHOICE, log 4. -/
def State.reset : State where
  mem := []
  v := Vector.replicate 16 0x00#8
  i := 0x0000#16
  pc := 0x0200#16
  stack := []
  dt := 0x00#8
  st := 0x00#8
  fb := Vector.replicate 32 (Vector.replicate 64 false)
  keys := Vector.replicate 16 false
  cfg := { shiftQuirk := false, loadStoreQuirk := false }
  faultRecord := none
  lastResult := none
  params := { stackDepth := .bounded 16, fx29Wide := .unmasked }
  draws := 0

end Sys2Proof.Machine
end

