-- ==== Sys2Proof/Machine/Ops.lean ====
section
/-! DEFINITION. The named operations on the state: memory with its address decoder, ending a step with Ok or with
an error (the spec's "trap entry"), PC, the call stack and the framebuffer. -/

namespace Sys2Proof.Machine

/-! ### Memory (20_memory.md) -/

/-- The default FONT, digits 0 to 7 (R63): PRESUMED, log 9. -/
def fontLow : List Byte :=
  [0xF0#8, 0x90#8, 0x90#8, 0x90#8, 0xF0#8] ++ [0x20#8, 0x60#8, 0x20#8, 0x20#8, 0x70#8] ++
  [0xF0#8, 0x10#8, 0xF0#8, 0x80#8, 0xF0#8] ++ [0xF0#8, 0x10#8, 0xF0#8, 0x10#8, 0xF0#8] ++
  [0x90#8, 0x90#8, 0xF0#8, 0x10#8, 0x10#8] ++ [0xF0#8, 0x80#8, 0xF0#8, 0x10#8, 0xF0#8] ++
  [0xF0#8, 0x80#8, 0xF0#8, 0x90#8, 0xF0#8] ++ [0xF0#8, 0x10#8, 0x20#8, 0x40#8, 0x40#8]

/-- The default FONT, digits 8 to F (R63): PRESUMED, log 9. -/
def fontHigh : List Byte :=
  [0xF0#8, 0x90#8, 0xF0#8, 0x90#8, 0xF0#8] ++ [0xF0#8, 0x90#8, 0xF0#8, 0x10#8, 0xF0#8] ++
  [0xF0#8, 0x90#8, 0xF0#8, 0x90#8, 0x90#8] ++ [0xE0#8, 0x90#8, 0xE0#8, 0x90#8, 0xE0#8] ++
  [0xF0#8, 0x80#8, 0x80#8, 0x80#8, 0xF0#8] ++ [0xE0#8, 0x90#8, 0x90#8, 0x90#8, 0xE0#8] ++
  [0xF0#8, 0x80#8, 0xF0#8, 0x80#8, 0xF0#8] ++ [0xF0#8, 0x80#8, 0xF0#8, 0x80#8, 0x80#8]

/-- The default FONT: the 80 bytes at 0x000 to 0x04F, digit d at 5d (R62, R63). -/
def defaultFont : List Byte := fontLow ++ fontHigh

/-- What an unlisted address reads as: its content at reset with an empty image (R61, 70_reset_and_hazards.md
R231): FONT below 0x050, zero everywhere else. -/
def Memory.unlisted (a : Nat) : Byte := defaultFont.getD a 0x00#8

/-- The byte at an address (R60). -/
def Memory.read : Memory → Nat → Byte
  | [], a => Memory.unlisted a
  | (k, b) :: rest, a => if k = a then b else Memory.read rest a

/-- Put a byte at an address of the rising list, listing it only when it differs from the unlisted reading. -/
def Memory.insert (a : Nat) (b : Byte) : Memory → Memory
  | [] => if b = Memory.unlisted a then [] else [(a, b)]
  | (k, c) :: rest =>
    if a < k then (if b = Memory.unlisted a then (k, c) :: rest else (a, b) :: (k, c) :: rest)
    else if a = k then (if b = Memory.unlisted a then rest else (a, b) :: rest)
    else (k, c) :: Memory.insert a b rest

/-- Write one byte (R65: every address is writable). No address at or above 0x1000 exists (R60); `memWrite`
checks before it comes here, so the guard only keeps the list inside the address space. -/
def Memory.write (m : Memory) (a : Nat) (b : Byte) : Memory :=
  if a < Config.memSize then Memory.insert a b m else m

/-- Write bytes at consecutive rising addresses (R67). -/
def Memory.writeBytes (m : Memory) (a : Nat) : List Byte → Memory
  | [] => m
  | b :: rest => Memory.writeBytes (Memory.write m a b) (a + 1) rest

/-- The canonical form: addresses strictly rising and below 0x1000, no cell equal to the unlisted reading. -/
abbrev Memory.wf (m : Memory) : Prop :=
  m.Pairwise (fun c d => c.1 < d.1) ∧ ∀ c ∈ m, c.1 < Config.memSize ∧ c.2 ≠ Memory.unlisted c.1

/-- The address decoder (R68): n bytes at a natural-number address a all exist. A zero-byte access has no check. -/
def inMemory (a n : Nat) : Bool := n = 0 || a + n - 1 ≤ 0xFFF

/-- MemRead(a, n) (R68): the bytes, or none where it raises MemoryAddressFault. -/
def memRead (m : Memory) (a n : Nat) : Option (List Byte) :=
  if inMemory a n then some ((List.range n).map fun k => Memory.read m (a + k)) else none

/-- MemWrite(a, n, bytes) with n the number of bytes (R68): the new memory, or none where it raises
MemoryAddressFault, in which case no byte is written. -/
def memWrite (m : Memory) (a : Nat) (bytes : List Byte) : Option Memory :=
  if inMemory a bytes.length then some (Memory.writeBytes m a bytes) else none

/-! ### How a step ends (00_scope.md R19, 60_exceptions.md R209) -/

/-- The answer to the host (R19, 10_state.md R45), kept for it to read (R49). -/
def State.setResult (s : State) (r : StepResult) : State := { s with lastResult := some r }

/-- The sticky record takes an error only when it holds none (DEDUCED, log 2). -/
def State.recordFault (s : State) (e : StepError) : State := { s with faultRecord := s.faultRecord.or (some e) }

/-- The step ends with Ok. -/
def complete (s : State) : Result := .next (s.setResult .ok)

/-- Raising an error, the spec's "trap entry" (R209): the host is answered Err and the state is as the raising rule
left it; nothing is saved and control goes nowhere. The first error of a run stays in the sticky record (R211,
DEDUCED, log 2). The machine may be stepped again (R211), so this is a next state (log 1). The spec has no return
from an error (R211). -/
def raise (e : StepError) (s : State) : Result := .next ((s.recordFault e).setResult (.err e))

/-! ### Program counter (10_state.md R25 to R27) -/

/-- The address `a` the executing instruction was fetched from: PC is a + 2 while it executes (R25, R88). -/
def State.fetchAddress (s : State) : Word := s.pc - 2

/-- Write PC. -/
def State.setPc (s : State) (t : Word) : State := { s with pc := t }

/-- The fetch advance, and the further advance of a taken skip (R88, 40_control_flow.md R119). -/
def State.advancePc (s : State) : State := s.setPc (s.pc + 2)

/-- A skip when the condition holds (R119): blind to the word it skips. -/
def State.skipIf (s : State) (c : Bool) : State := if c then s.advancePc else s

/-! ### Call stack (10_state.md R29, R30) -/

/-- |S| = STACK_DEPTH, or more, which no run reaches; never under the unbounded reading (R9). -/
def State.stackFull (s : State) : Bool :=
  match s.params.stackDepth with
  | .bounded capacity => capacity ≤ s.stack.length
  | .unbounded => false

/-- push(S, a): the top is last (00_scope.md R16). -/
def State.push (s : State) (a : Word) : State := { s with stack := s.stack ++ [a] }

/-- pop(S): the most recently pushed address and the state without it, none when S is empty. -/
def State.pop (s : State) : Option (Word × State) :=
  match s.stack.getLast? with
  | some a => some (a, { s with stack := s.stack.dropLast })
  | none => none

/-! ### Framebuffer (10_state.md R33) -/

/-- FB[y][x], false outside the array. -/
def Framebuffer.pixel (fb : Framebuffer) (y x : Nat) : Bool :=
  if h : y < 32 ∧ x < 64 then (fb[y]'h.1)[x]'h.2 else false

/-- FB[y][x] <- b; nothing outside the array. -/
def Framebuffer.setPixel (fb : Framebuffer) (y x : Nat) (b : Bool) : Framebuffer :=
  if h : y < 32 ∧ x < 64 then fb.set y ((fb[y]'h.1).set x b h.2) h.1 else fb

/-- Every pixel off (40_control_flow.md R110). -/
def Framebuffer.clear : Framebuffer := Vector.replicate 32 (Vector.replicate 64 false)

/-- One row of the array, none for a row index out of range (10_state.md R53). -/
def Framebuffer.row (fb : Framebuffer) (y : Nat) : Option (Vector Bool 64) := fb[y]?

end Sys2Proof.Machine
end

