-- ==== Sys2Proof/Machine/Operands.lean ====
section
/-! DEFINITION. Every operand form of the instruction set (30_encoding.md R83): general registers, the immediates
widened with zeros, the bytes at I, the key a register names, the digit sprite address, the sprite origin and the
shift source. -/

namespace Sys2Proof.Machine

/-- V[x] (10_state.md R20). -/
def State.readV (s : State) (x : RegIx) : Byte := s.v[x.toNat]'x.isLt

/-- V[x] <- b (R20): no register is hard-wired. -/
def State.writeV (s : State) (x : RegIx) (b : Byte) : State := { s with v := s.v.set x.toNat b x.isLt }

/-- V0 to Vx in order, the bytes of Fx55 (46_timers_misc.md R196). -/
def State.regsUpTo (s : State) (x : RegIx) : List Byte := s.v.toList.take (x.toNat + 1)

/-- V[k] <- the first byte, V[k+1] <- the second, and so on (R197); bytes past VF go nowhere. -/
def setRegsFrom (v : Vector Byte 16) (k : Nat) : List Byte → Vector Byte 16
  | [] => v
  | b :: rest => setRegsFrom (v.setIfInBounds k b) (k + 1) rest

/-- for i in 0..x: V[i] <- b[i] (R197). -/
def State.writeRegs (s : State) (bytes : List Byte) : State := { s with v := setRegsFrom s.v 0 bytes }

/-- zext_16 of an 8-bit value (00_scope.md R15, 30_encoding.md R83). -/
def zext16 (b : Byte) : Word := b.setWidth 16

/-- zext_16 of a 12-bit address (R83). -/
def addrOf (nnn : Addr12) : Word := nnn.setWidth 16

/-- I as the natural number an access starts at, never reduced modulo 4096 (20_memory.md R68). -/
def State.indexAddress (s : State) : Nat := s.i.toNat

/-- I <- a. -/
def State.setI (s : State) (a : Word) : State := { s with i := a }

/-- The key index V[x] & 0x0F (45_input.md R182). -/
def State.keyIndex (s : State) (x : RegIx) : Nat := (s.readV x &&& 0x0F#8).toNat

/-- K[k] (10_state.md R35). -/
def State.keyHeld (s : State) (k : Nat) : Bool := s.keys[k]?.getD false

/-- The lowest-indexed held key (46_timers_misc.md R188). -/
def State.lowestKey (s : State) : Option Nat := (List.range 16).find? fun k => s.keyHeld k

/-- The value a shift shifts: Vx with the shift quirk, Vy without (41_register_ops.md R141). -/
def State.shiftSource (s : State) (x y : RegIx) : Byte := if s.cfg.shiftQuirk then s.readV x else s.readV y

/-- The digit Fx29 looks up: Vx, or its low nibble when Vx > 0x0F and FX29_WIDE is masked (42_addressing.md R156). -/
def State.digitOf (s : State) (x : RegIx) : Byte :=
  match s.params.fx29Wide with
  | .unmasked => s.readV x
  | .masked => if (s.readV x).toNat ≤ 0x0F then s.readV x else s.readV x &&& 0x0F#8

/-- The sprite's left column V[x] mod 64 (44_draw.md R166). -/
def State.originX (s : State) (x : RegIx) : Nat := (s.readV x).toNat % Config.width

/-- The sprite's top row V[y] mod 32 (R166). -/
def State.originY (s : State) (y : RegIx) : Nat := (s.readV y).toNat % Config.height

/-- I after a successful Fx55 or Fx65 (46_timers_misc.md R195): unchanged with the load/store quirk, else
advanced by x + 1 modulo 2^16. -/
def State.advanceIndex (s : State) (x : RegIx) : State :=
  if s.cfg.loadStoreQuirk then s else s.setI (s.i + BitVec.ofNat 16 (x.toNat + 1))

/-- The decimal digits of a byte, hundreds first (R191, R192). -/
def bcdDigits (b : Byte) : List Byte :=
  [BitVec.ofNat 8 (b.toNat / 100), BitVec.ofNat 8 (b.toNat / 10 % 10), BitVec.ofNat 8 (b.toNat % 10)]

end Sys2Proof.Machine
end

