-- ==== Sys2Proof/Machine/Flags.lean ====
section
/-! DEFINITION. Every flag computation of the instruction set. VF is the only flag and holds 0 or 1 after each of
them (10_state.md R21, R23). -/

namespace Sys2Proof.Machine

/-- The number of the flag register VF (10_state.md R21). -/
def flagReg : RegIx := 0xF#4

/-- A flag as the byte VF receives: 1 or 0 (R23). -/
def flagByte (c : Bool) : Byte := if c then 0x01#8 else 0x00#8

/-- The carry of p + q: the true sum exceeds 255 (41_register_ops.md R139). -/
def carryOf (p q : Byte) : Bool := p.toNat + q.toNat > 255

/-- The not-borrow of p - q: p is at least q (R139). -/
def notBorrowOf (p q : Byte) : Bool := p.toNat ≥ q.toNat

/-- The bit a right shift by one moves out (R143). -/
def bitOutRight (src : Byte) : Bool := src.getLsbD 0

/-- The bit a left shift by one moves out (R145). -/
def bitOutLeft (src : Byte) : Bool := src.getLsbD 7

/-- V[x] <- r, then V[0xF] <- f: the flag last (R140). -/
def State.writeWithFlag (s : State) (x : RegIx) (r : Byte) (f : Bool) : State :=
  (s.writeV x r).writeV flagReg (flagByte f)

end Sys2Proof.Machine
end

