-- ==== Sys2Proof/Machine/Addressing.lean ====
section
/-! DEFINITION. Addressing (42_addressing.md). None of these accesses memory or raises an error. -/

namespace Sys2Proof.Machine

/-- Annn (R150). -/
def execLdI (nnn : Addr12) (s : State) : Result := complete (s.setI (addrOf nnn))

/-- Bnnn (R152): 16-bit sum, not reduced modulo 4096. -/
def execJpV0 (nnn : Addr12) (s : State) : Result := complete (s.setPc (addrOf nnn + zext16 (s.readV 0x0#4)))

/-- Fx1E (R154): modulo 2^16, VF not written. -/
def execAddI (x : RegIx) (s : State) : Result := complete (s.setI (s.i + zext16 (s.readV x)))

/-- Fx29 (R156). -/
def execLdF (x : RegIx) (s : State) : Result := complete (s.setI (5#16 * zext16 (s.digitOf x)))

end Sys2Proof.Machine
end

