-- ==== Sys2Proof/Machine/ControlFlow.lean ====
section
/-! DEFINITION. Control flow (40_control_flow.md). Every meaning runs with PC = a + 2, a the fetch address. -/

namespace Sys2Proof.Machine

/-- 00E0 (R110). -/
def execCls (s : State) : Result := complete { s with fb := Framebuffer.clear }

/-- 00EE (R111). -/
def execRet (s : State) : Result :=
  match s.pop with
  | none => raise (.callStackUnderflow s.fetchAddress) s
  | some (a, t) => complete (t.setPc a)

/-- 0nnn (R112): raised at decode in the spec's words (R202), here by the row's own meaning; the state it leaves is
that of R90. -/
def execSys (nnn : Addr12) (s : State) : Result :=
  raise (.unsupportedInstruction (encode (.sys nnn)) s.fetchAddress) s

/-- 1nnn (R113). -/
def execJp (nnn : Addr12) (s : State) : Result := complete (s.setPc (addrOf nnn))

/-- 2nnn (R114). -/
def execCall (nnn : Addr12) (s : State) : Result :=
  if s.stackFull then raise (.callStackOverflow s.fetchAddress) s
  else complete ((s.push s.pc).setPc (addrOf nnn))

/-- 3xkk (R115). -/
def execSeImm (x : RegIx) (kk : Byte) (s : State) : Result := complete (s.skipIf (s.readV x == kk))

/-- 4xkk (R116). -/
def execSneImm (x : RegIx) (kk : Byte) (s : State) : Result := complete (s.skipIf (s.readV x != kk))

/-- 5xy0 (R117). -/
def execSeReg (x y : RegIx) (s : State) : Result := complete (s.skipIf (s.readV x == s.readV y))

/-- 9xy0 (R118). -/
def execSneReg (x y : RegIx) (s : State) : Result := complete (s.skipIf (s.readV x != s.readV y))

end Sys2Proof.Machine
end

