-- ==== Sys2Proof/Machine/Draw.lean ====
section
/-! DEFINITION. Draw (44_draw.md): the loops of R168 over rows and columns, with the framebuffer and the collision
flag as what they carry. -/

namespace Sys2Proof.Machine

/-- What the draw loops carry: the framebuffer and the collision flag c. -/
structure DrawState where
  fb : Framebuffer
  collision : Bool
  deriving DecidableEq, Repr

/-- One set or clear sprite bit at screen row py and column px: clipped outside the screen (R167), nothing for a
clear bit, else the collision is seen before the XOR (R169). -/
def drawBit (py px : Nat) (bit : Bool) (d : DrawState) : DrawState :=
  if py ≥ Config.height then d
  else if px ≥ Config.width then d
  else if bit then
    { fb := Framebuffer.setPixel d.fb py px (Framebuffer.pixel d.fb py px ^^ true)
      collision := d.collision || Framebuffer.pixel d.fb py px }
  else d

/-- One row byte: column b is bit 7 - b (R165). -/
def drawRow (py x0 : Nat) (row : Byte) (d : DrawState) : DrawState :=
  (List.range 8).foldl (fun d b => drawBit py (x0 + b) (row.getLsbD (7 - b)) d) d

/-- The rows from the top, the first at screen row py. -/
def drawRows (py x0 : Nat) : List Byte → DrawState → DrawState
  | [], d => d
  | row :: rest, d => drawRows (py + 1) x0 rest (drawRow py x0 row d)

/-- The framebuffer of the draw, then VF <- c. -/
def State.finishDraw (s : State) (d : DrawState) : State :=
  { s with fb := d.fb }.writeV flagReg (flagByte d.collision)

/-- Dxyn (R168). All n bytes are checked and read first (R170); n = 0 reads none and draws none (R171). -/
def execDrw (x y : RegIx) (n : Nibble) (s : State) : Result :=
  match memRead s.mem s.indexAddress n.toNat with
  | none => raise (.memoryAddressFault s.i n.toNat) s
  | some rows => complete (s.finishDraw (drawRows (s.originY y) (s.originX x) rows { fb := s.fb, collision := false }))

end Sys2Proof.Machine
end

