-- ==== Sys2Proof/Machine/Input.lean ====
section
/-! DEFINITION. Input: the key skips (45_input.md). -/

namespace Sys2Proof.Machine

/-- Ex9E (R180). -/
def execSkp (x : RegIx) (s : State) : Result := complete (s.skipIf (s.keyHeld (s.keyIndex x)))

/-- ExA1 (R181). -/
def execSknp (x : RegIx) (s : State) : Result := complete (s.skipIf (!s.keyHeld (s.keyIndex x)))

end Sys2Proof.Machine
end

