-- ==== Sys2Proof/Machine/Random.lean ====
section
/-! DEFINITION. Random (43_random.md). The byte is a free value (log 7). -/

namespace Sys2Proof.Machine

/-- Rand() (R161): the next free byte and the state that has drawn it. -/
def State.drawByte (s : State) : Byte × State := (Config.randomByte s.draws, { s with draws := s.draws + 1 })

/-- Cxkk (R160). -/
def execRnd (x : RegIx) (kk : Byte) (s : State) : Result :=
  complete (s.drawByte.2.writeV x (s.drawByte.1 &&& kk))

end Sys2Proof.Machine
end

