-- ==== Sys2Proof/Machine/RegisterOps.lean ====
section
/-! DEFINITION. Register operations (41_register_ops.md). Every operand is read before any register is written;
PC stays a + 2 and no error is raised. -/

namespace Sys2Proof.Machine

/-- 6xkk (R130). -/
def execLdImm (x : RegIx) (kk : Byte) (s : State) : Result := complete (s.writeV x kk)

/-- 7xkk (R131): wraps, no flag. -/
def execAddImm (x : RegIx) (kk : Byte) (s : State) : Result := complete (s.writeV x (s.readV x + kk))

/-- 8xy0 (R132). -/
def execLdReg (x y : RegIx) (s : State) : Result := complete (s.writeV x (s.readV y))

/-- 8xy1 (R133): VF not written as a flag (10_state.md R24). -/
def execOrReg (x y : RegIx) (s : State) : Result := complete (s.writeV x (s.readV x ||| s.readV y))

/-- 8xy2 (R134). -/
def execAndReg (x y : RegIx) (s : State) : Result := complete (s.writeV x (s.readV x &&& s.readV y))

/-- 8xy3 (R135). -/
def execXorReg (x y : RegIx) (s : State) : Result := complete (s.writeV x (s.readV x ^^^ s.readV y))

/-- 8xy4 (R136). -/
def execAddReg (x y : RegIx) (s : State) : Result :=
  complete (s.writeWithFlag x (s.readV x + s.readV y) (carryOf (s.readV x) (s.readV y)))

/-- Vx <- p - q modulo 256, VF <- not borrow: the shared part of 8xy5 and 8xy7 (R137, R138). -/
def State.subInto (s : State) (x : RegIx) (p q : Byte) : State := s.writeWithFlag x (p - q) (notBorrowOf p q)

/-- 8xy5 (R137): Vx - Vy. -/
def execSubReg (x y : RegIx) (s : State) : Result := complete (s.subInto x (s.readV x) (s.readV y))

/-- 8xy7 (R138): Vy - Vx. -/
def execSubnReg (x y : RegIx) (s : State) : Result := complete (s.subInto x (s.readV y) (s.readV x))

/-- 8xy6 (R143): by exactly one, zero fill (R142). -/
def execShr (x y : RegIx) (s : State) : Result :=
  complete (s.writeWithFlag x (s.shiftSource x y >>> 1) (bitOutRight (s.shiftSource x y)))

/-- 8xyE (R145): by exactly one, zero fill (R142). -/
def execShl (x y : RegIx) (s : State) : Result :=
  complete (s.writeWithFlag x (s.shiftSource x y <<< 1) (bitOutLeft (s.shiftSource x y)))

end Sys2Proof.Machine
end

