-- ==== Sys2Proof/Machine/TimersMisc.lean ====
section
/-! DEFINITION. Timers and miscellany (46_timers_misc.md): timer access, wait for key, BCD, bulk store and load. -/

namespace Sys2Proof.Machine

/-- Fx07 (R185). -/
def execLdVxDt (x : RegIx) (s : State) : Result := complete (s.writeV x s.dt)

/-- Fx15 (R186). -/
def execLdDtVx (x : RegIx) (s : State) : Result := complete { s with dt := s.readV x }

/-- Fx18 (R187). -/
def execLdStVx (x : RegIx) (s : State) : Result := complete { s with st := s.readV x }

/-- Fx0A (R188): the lowest held key, or PC - 2, so that the same instruction runs again at the next step (R189). -/
def execLdVxK (x : RegIx) (s : State) : Result :=
  match s.lowestKey with
  | some k => complete (s.writeV x (BitVec.ofNat 8 k))
  | none => complete (s.setPc (s.pc - 2))

/-- Fx33 (R191). -/
def execLdB (x : RegIx) (s : State) : Result :=
  match memWrite s.mem s.indexAddress (bcdDigits (s.readV x)) with
  | none => raise (.memoryAddressFault s.i 3) s
  | some m => complete { s with mem := m }

/-- Fx55 (R196). -/
def execStoreRegs (x : RegIx) (s : State) : Result :=
  match memWrite s.mem s.indexAddress (s.regsUpTo x) with
  | none => raise (.memoryAddressFault s.i (x.toNat + 1)) s
  | some m => complete ({ s with mem := m }.advanceIndex x)

/-- Fx65 (R197). -/
def execLoadRegs (x : RegIx) (s : State) : Result :=
  match memRead s.mem s.indexAddress (x.toNat + 1) with
  | none => raise (.memoryAddressFault s.i (x.toNat + 1)) s
  | some bytes => complete ((s.writeRegs bytes).advanceIndex x)

end Sys2Proof.Machine
end

