-- ==== Sys2Proof/Machine/Fetch.lean ====
section
/-! DEFINITION. Instruction fetch (30_encoding.md R87, R88), the errors of fetch and decode (60_exceptions.md R201,
R202), and placing an instruction where it is fetched. -/

namespace Sys2Proof.Machine

/-- The word at a and a + 1, big-endian (20_memory.md R66). -/
def Memory.readWord (m : Memory) (a : Nat) : Word := Word.ofBytes (Memory.read m a) (Memory.read m (a + 1))

/-- The word at PC, or none when PC > 0xFFE (R87). An odd PC fetches like any other (R69). -/
def State.fetch (s : State) : Option Word := if s.pc.toNat > 0xFFE then none else some (Memory.readWord s.mem s.pc.toNat)

/-- The fetch failed: PC and everything else stay (R87, R201). -/
def raiseInvalidPc (s : State) : Result := raise (.invalidProgramCounter s.pc) s

/-- The word w is no instruction; PC has advanced (R90, R202). -/
def raiseDecodeError (e : DecodeError) (w : Word) (s : State) : Result :=
  match e with
  | .notWellFormed => raise (.notWellFormedInstruction w s.fetchAddress) s

/-- The word at PC and PC + 1 replaced by w (what a load of the program does, log 11). -/
def State.placeWord (s : State) (w : Word) : State :=
  { s with mem := Memory.writeBytes s.mem s.pc.toNat [w.hiByte, w.loByte] }

end Sys2Proof.Machine
end

