-- ==== Sys2Proof/Machine/Step.lean ====
section
/-! DEFINITION. One step: fetch, advance, decode, execute (30_encoding.md R86 to R91). -/

namespace Sys2Proof.Machine

/-- One requested step (10_state.md R45). -/
def step (s : State) : Host.Outcome State Fault Refusal :=
  match s.fetch with
  | none => raiseInvalidPc s
  | some w =>
    match decode w with
    | .ok i => exec i s.advancePc
    | .error e => raiseDecodeError e w s.advancePc

/-- The state with the table's instruction placed at PC (log 11). -/
def State.withFetchWord (s : State) (nbits w : Nat) : State := s.placeWord (wordOfTable nbits w)

end Sys2Proof.Machine
end

