-- ==== Sys2Proof/Machine/Construct.lean ====
section
/-! DEFINITION. Construction: the only reset (70_reset_and_hazards.md R230 to R233, 10_state.md R50), with every
parameter of 00_scope.md R9 to R14 as an argument. -/

namespace Sys2Proof.Machine

/-- What the host delivers as the program image (R232, R233). -/
inductive ImageSource where
  | bytes (image : List Byte)
  /-- The image could not be read; the host's cause (60_exceptions.md R205). -/
  | unreadable (cause : String)
  deriving DecidableEq, Repr

/-- The values an initial draw gives the fields the source does not initialise (00_scope.md R14). -/
structure InitialDraw where
  v : Vector Byte 16
  i : Word
  dt : Byte
  st : Byte
  fb : Framebuffer
  keys : Vector Bool 16
  deriving DecidableEq, Repr

/-- The parameter RESET_POLICY (R14): all zero, or an initial draw. -/
inductive ResetPolicy where
  | zero
  | draw (initial : InitialDraw)
  deriving DecidableEq, Repr

/-- What a construction takes (R50, 00_scope.md R9 to R14). -/
structure Construction where
  image : ImageSource
  cfg : Cfg
  params : Params
  /-- FONT: 80 bytes (R10). -/
  font : Vector Byte 80
  resetPolicy : ResetPolicy
  deriving DecidableEq, Repr

/-- The default FONT as a vector. -/
def defaultFontVector : Vector Byte 80 := ⟨defaultFont.toArray, by decide⟩

/-- The memory image (R232): FONT at 0x000, zeros, the program bytes from 0x200, zeros. -/
def loadMemory (font image : List Byte) : Memory :=
  Memory.writeBytes (Memory.writeBytes [] 0 font) Config.programBase image

/-- The fields RESET_POLICY decides (R14, R231). -/
def applyResetPolicy (p : ResetPolicy) (s : State) : State :=
  match p with
  | .zero => s
  | .draw d => { s with v := d.v, i := d.i, dt := d.dt, st := d.st, fb := d.fb, keys := d.keys }

/-- The state after construction from a readable image that fits (R230, R231). -/
def constructed (c : Construction) (image : List Byte) : State :=
  applyResetPolicy c.resetPolicy
    { State.reset with mem := loadMemory c.font.toList image, cfg := c.cfg, params := c.params }

/-- Construction (R233). -/
def construct (c : Construction) : Result :=
  match c.image with
  | .unreadable cause => .fault (.ioError cause)
  | .bytes image =>
    if image.length > Config.maxImage then .fault (.programTooLarge image.length)
    else .next (constructed c image)

/-- A construction with every parameter at the spec's default (R9, R10, R11, R14). -/
def defaultConstruction (image : List Byte) (cfg : Cfg) : Construction where
  image := .bytes image
  cfg := cfg
  params := { stackDepth := .bounded 16, fx29Wide := .unmasked }
  font := defaultFontVector
  resetPolicy := .zero

end Sys2Proof.Machine
end

