-- ==== Sys2Proof/Machine/Transactions.lean ====
section
/-! DEFINITION. The host's transactions between steps (10_state.md R45 to R53, 60_exceptions.md R212, R218): tick, key
write, timer writes, reads, and a run as a sequence of transactions. Each runs to completion before the next begins
(R52), so none can overlap a step. -/

namespace Sys2Proof.Machine

/-- One timer after a tick: down by one, saturating at 0 (R212). -/
def tickTimer (t : Byte) : Byte := if t.toNat > 0 then t - 1 else 0x00#8

/-- Tick: both timers at once (R212); not a step. -/
def State.tick (s : State) : State := { s with dt := tickTimer s.dt, st := tickTimer s.st }

/-- Set one key flag. -/
def State.writeKey (s : State) (k : Nibble) (held : Bool) : State :=
  { s with keys := s.keys.set k.toNat held k.isLt }

/-- Key write: any subset of the flags to any values (R47). -/
def State.writeKeys (s : State) : List (Nibble × Bool) → State
  | [] => s
  | (k, held) :: rest => (s.writeKey k held).writeKeys rest

/-- What the host may read (R49, R53). -/
inductive ReadRequest where
  /-- One framebuffer row; fails for a row index out of range. -/
  | row (y : Nat)
  /-- The 2048-byte framebuffer export (R34). -/
  | frame
  | delayTimer
  | soundTimer
  /-- The answer of the last step. -/
  | lastResult
  deriving DecidableEq, Repr

/-- What a read answers. -/
inductive ReadAnswer where
  | row (pixels : Option (Vector Bool 64))
  | frame (cells : List Byte)
  | timer (value : Byte)
  | result (r : Option StepResult)
  deriving DecidableEq, Repr

/-- The export byte of a pixel (R34); the two values are OPEN (log 8). -/
def pixelByte (on : Bool) : Byte := if on then Config.pixelOn else Config.pixelOff

/-- The framebuffer export: cell y * 64 + x, row-major (R34). -/
def Framebuffer.frameCells (fb : Framebuffer) : List Byte := fb.toList.flatMap fun r => r.toList.map pixelByte

/-- State read (R49): no side effect. -/
def State.answer (s : State) : ReadRequest → ReadAnswer
  | .row y => .row (Framebuffer.row s.fb y)
  | .frame => .frame (Framebuffer.frameCells s.fb)
  | .delayTimer => .timer s.dt
  | .soundTimer => .timer s.st
  | .lastResult => .result s.lastResult

/-- One transaction of the host (R218). -/
inductive Transaction where
  | step
  | tick
  | writeKeys (updates : List (Nibble × Bool))
  | writeDelayTimer (value : Byte)
  | writeSoundTimer (value : Byte)
  | read (request : ReadRequest)
  deriving DecidableEq, Repr

/-- A transaction's effect on the state. -/
def transact (t : Transaction) (s : State) : Result :=
  match t with
  | .step => Sys2Proof.Machine.step s
  | .tick => .next s.tick
  | .writeKeys updates => .next (s.writeKeys updates)
  | .writeDelayTimer value => .next { s with dt := value }
  | .writeSoundTimer value => .next { s with st := value }
  | .read _ => .next s

/-- A run: the host's transactions in order, any number of them between two steps (R52). An error ends no run by
itself: the host decides (60_exceptions.md R211). -/
def runTransactions : List Transaction → State → Result
  | [], s => .next s
  | t :: rest, s =>
    match transact t s with
    | .next s' => runTransactions rest s'
    | .fault r => .fault r
    | .refused r => .refused r

end Sys2Proof.Machine
end

