-- ==== Sys2Proof/Safety.lean ====
section
/-! DEFINITION. The terms claims are stated in: frames (what an instruction leaves unchanged), completing and raising,
the invariants of the state, successful runs, and the spec's own words for sprites, illegal words and error
priority, written apart from the meanings. -/

namespace Sys2Proof.Machine

/-! ### Frames -/

/-- The pieces of state a form may change; each defaults to none. K, cfg and the parameters are changed by no
instruction (10_state.md R35, R36), so they have no entry. -/
structure Touch where
  regs : RegIx → Prop := fun _ => False
  bytes : Nat → Prop := fun _ => False
  index : Prop := False
  pc : Prop := False
  stack : Prop := False
  delay : Prop := False
  sound : Prop := False
  frame : Prop := False
  draws : Prop := False

/-- Everything outside the touched pieces is unchanged; memory through the read of one byte. -/
structure Keeps (τ : Touch) (s t : State) : Prop where
  regs : ∀ r, ¬ τ.regs r → t.readV r = s.readV r
  bytes : ∀ a, ¬ τ.bytes a → Memory.read t.mem a = Memory.read s.mem a
  index : ¬ τ.index → t.i = s.i
  pc : ¬ τ.pc → t.pc = s.pc
  stack : ¬ τ.stack → t.stack = s.stack
  delay : ¬ τ.delay → t.dt = s.dt
  sound : ¬ τ.sound → t.st = s.st
  frame : ¬ τ.frame → t.fb = s.fb
  draws : ¬ τ.draws → t.draws = s.draws
  keys : t.keys = s.keys
  cfg : t.cfg = s.cfg
  params : t.params = s.params

/-- The instruction runs to its end: a next state t, answer Ok, the fault record as it was, and nothing outside the
touched pieces changed. -/
structure Completes (i : Instr) (τ : Touch) (s t : State) : Prop where
  next : exec i s = .next t
  ok : t.lastResult = some .ok
  record : t.faultRecord = s.faultRecord
  keeps : Keeps τ s t

/-- The result is the error e raised over the state s (60_exceptions.md R209): the host is answered e, a fault is on
record, and nothing outside the touched pieces changed. Which error the record holds is said apart: e where it was empty,
else the one it held (`Obligations.FaultRecordKeepsFirstError`). -/
structure Raises (r : Result) (e : StepError) (τ : Touch) (s t : State) : Prop where
  next : r = .next t
  err : t.lastResult = some (.err e)
  record : t.faultRecord ≠ none
  keeps : Keeps τ s t

/-- The instruction skips exactly when c holds (40_control_flow.md R119): PC two further, else PC as it was (a + 2), and
nothing else changed either way. -/
def SkipsWhen (i : Instr) (c : Prop) (s : State) : Prop :=
  (c → ∃ t, Completes i { pc := True } s t ∧ t.pc = s.pc + 2) ∧ (¬ c → ∃ t, Completes i {} s t)

/-- The word numbered w decodes to i (30_encoding.md R84). -/
def EncodedAs (w : Nat) (i : Instr) : Prop := ∀ u : Word, u.toNat = w → decode u = .ok i

/-! ### Invariants and runs -/

/-- |S| ≤ STACK_DEPTH (10_state.md R40). -/
def State.stackWithin (s : State) : Bool :=
  match s.params.stackDepth with
  | .bounded capacity => s.stack.length ≤ capacity
  | .unbounded => true

/-- The model's invariant: memory in canonical form, the stack within its depth (R40), and an answered error always in
the sticky record (60_exceptions.md R209). -/
abbrev State.Inv (s : State) : Prop :=
  Memory.wf s.mem ∧ s.stackWithin = true ∧
    (s.faultRecord = none → s.lastResult = none ∨ s.lastResult = some .ok)

/-- PC at most 0x10FE and every return address at most 0x1000, so that PC arithmetic never wraps (10_state.md R26,
40_control_flow.md R114). -/
abbrev State.PcBounded (s : State) : Prop := s.pc.toNat ≤ 0x10FE ∧ ∀ a ∈ s.stack, a.toNat ≤ 0x1000

/-- A run of transactions that has recorded no fault (60_exceptions.md R211, 70_reset_and_hazards.md R236). -/
def SuccessfulRun (ts : List Transaction) (s : State) : Prop :=
  ∃ t, runTransactions ts s = .next t ∧ t.faultRecord = none

/-! ### The spec's words, apart from the meanings -/

/-- The sprite of Dxyn at I has a set bit that lands on screen row py and column px (44_draw.md R165 to R167). -/
def SpriteCovers (s : State) (x y : RegIx) (n : Nibble) (py px : Nat) : Prop :=
  ∃ r b, r < n.toNat ∧ b < 8 ∧ py = (s.readV y).toNat % 32 + r ∧ px = (s.readV x).toNat % 64 + b ∧
    py < 32 ∧ px < 64 ∧ (Memory.read s.mem (s.i.toNat + r)).getLsbD (7 - b) = true

/-- The word at PC as a number (20_memory.md R66). -/
def State.wordNumber (s : State) : Nat :=
  256 * (Memory.read s.mem s.pc.toNat).toNat + (Memory.read s.mem (s.pc.toNat + 1)).toNat

/-- The NotWellFormed words, the list of 30_encoding.md R92. -/
def NotWellFormedWord (w : Nat) : Bool :=
  (w / 0x1000 == 5 && w % 16 != 0) ||
  (w / 0x1000 == 8 && [0x8, 0x9, 0xA, 0xB, 0xC, 0xD, 0xF].contains (w % 16)) ||
  (w / 0x1000 == 9 && w % 16 != 0) ||
  (w / 0x1000 == 0xE && !([0x9E, 0xA1].contains (w % 256))) ||
  (w / 0x1000 == 0xF && !([0x07, 0x0A, 0x15, 0x18, 0x1E, 0x29, 0x33, 0x55, 0x65].contains (w % 256)))

/-- The Unsupported words (R93): family 0 but 0x00E0 and 0x00EE. -/
def UnsupportedWord (w : Nat) : Bool := w / 0x1000 == 0 && w != 0x00E0 && w != 0x00EE

/-- How many bytes at I the word's instruction accesses as data (20_memory.md R67). -/
def dataBytes (w : Nat) : Nat :=
  if w / 0x1000 = 0xD then w % 16
  else if w / 0x1000 = 0xF ∧ w % 256 = 0x33 then 3
  else if w / 0x1000 = 0xF ∧ (w % 256 = 0x55 ∨ w % 256 = 0x65) then w / 256 % 16 + 1
  else 0

/-- The registers an instruction may write, the last column of 10_state.md R22. -/
def writesReg (i : Instr) (r : RegIx) : Bool :=
  match i with
  | .cls | .ret | .sys _ | .jp _ | .call _ => false
  | .seImm _ _ | .sneImm _ _ | .seReg _ _ | .sneReg _ _ => false
  | .ldImm x _ | .addImm x _ => r == x
  | .ldReg x _ | .orReg x _ | .andReg x _ | .xorReg x _ => r == x
  | .addReg x _ | .subReg x _ | .subnReg x _ | .shr x _ | .shl x _ => r == x || r == 0xF#4
  | .ldI _ | .jpV0 _ => false
  | .rnd x _ => r == x
  | .drw _ _ _ => r == 0xF#4
  | .skp _ | .sknp _ => false
  | .ldVxDt x | .ldVxK x => r == x
  | .ldDtVx _ | .ldStVx _ | .addI _ | .ldF _ | .ldB _ | .storeRegs _ => false
  | .loadRegs x => decide (r.toNat ≤ x.toNat)

/-- The instructions that write VF as a side effect (10_state.md R21, R23). -/
def writesFlag (i : Instr) : Bool :=
  match i with
  | .addReg _ _ | .subReg _ _ | .subnReg _ _ | .shr _ _ | .shl _ _ | .drw _ _ _ => true
  | .cls | .ret | .sys _ | .jp _ | .call _ | .seImm _ _ | .sneImm _ _ | .seReg _ _ | .sneReg _ _ => false
  | .ldImm _ _ | .addImm _ _ | .ldReg _ _ | .orReg _ _ | .andReg _ _ | .xorReg _ _ => false
  | .ldI _ | .jpV0 _ | .rnd _ _ | .skp _ | .sknp _ | .ldVxDt _ | .ldVxK _ => false
  | .ldDtVx _ | .ldStVx _ | .addI _ | .ldF _ | .ldB _ | .storeRegs _ | .loadRegs _ => false

/-- The instructions that read the key flags (10_state.md R35). -/
def readsKeys (i : Instr) : Bool :=
  match i with
  | .skp _ | .sknp _ | .ldVxK _ => true
  | .cls | .ret | .sys _ | .jp _ | .call _ | .seImm _ _ | .sneImm _ _ | .seReg _ _ | .sneReg _ _ => false
  | .ldImm _ _ | .addImm _ _ | .ldReg _ _ | .orReg _ _ | .andReg _ _ | .xorReg _ _ => false
  | .addReg _ _ | .subReg _ _ | .subnReg _ _ | .shr _ _ | .shl _ _ | .ldI _ | .jpV0 _ | .rnd _ _ | .drw _ _ _ => false
  | .ldVxDt _ | .ldDtVx _ | .ldStVx _ | .addI _ | .ldF _ | .ldB _ | .storeRegs _ | .loadRegs _ => false

/-- The error the rules give the next step, in the order of 60_exceptions.md R210: fetch, decode, own condition. -/
def State.expectedError (s : State) : Option StepError :=
  if s.pc.toNat > 0xFFE then some (.invalidProgramCounter s.pc)
  else if NotWellFormedWord s.wordNumber then some (.notWellFormedInstruction (BitVec.ofNat 16 s.wordNumber) s.pc)
  else if UnsupportedWord s.wordNumber then some (.unsupportedInstruction (BitVec.ofNat 16 s.wordNumber) s.pc)
  else if s.wordNumber = 0x00EE ∧ s.stack = [] then some (.callStackUnderflow s.pc)
  else if s.wordNumber / 0x1000 = 2 ∧ s.stackFull = true then some (.callStackOverflow s.pc)
  else if dataBytes s.wordNumber > 0 ∧ s.i.toNat + dataBytes s.wordNumber - 1 > 0xFFF then
    some (.memoryAddressFault s.i (dataBytes s.wordNumber))
  else none

end Sys2Proof.Machine
end

