-- ==== Sys2Proof/Certificates/Slice0/Obligations.lean ====
section
/-! DEFINITION. The statements for the provers. Each docstring names the rules of spec/ it formalises; where a clause
is the spec's own decision (D<n> of 92_eei_decisions.md) or the model's choice (a log entry), it says so. `s.pc` in a
statement about `exec` is the fetch address plus 2 (10_state.md R25). -/

open Sys2Proof Sys2Proof.Machine

/-! ### Encoding (30_encoding.md) -/

/-- Words written out from the opcode map decode to the instruction they stand for: the four words of the source's own
scenarios and one more for each other family (R84; the patterns are general knowledge, D23). -/
def Obligations.SpecWordsDecode : Prop :=
  decode 0x6005#16 = .ok (.ldImm 0x0 0x05) ∧ decode 0x7003#16 = .ok (.addImm 0x0 0x03) ∧
  decode 0x2208#16 = .ok (.call 0x208) ∧ decode 0x00EE#16 = .ok .ret ∧
  decode 0x1ABC#16 = .ok (.jp 0xABC) ∧ decode 0x3310#16 = .ok (.seImm 0x3 0x10) ∧
  decode 0x4310#16 = .ok (.sneImm 0x3 0x10) ∧
  decode 0x5120#16 = .ok (.seReg 0x1 0x2) ∧ decode 0x812E#16 = .ok (.shl 0x1 0x2) ∧
  decode 0x9120#16 = .ok (.sneReg 0x1 0x2) ∧ decode 0xA300#16 = .ok (.ldI 0x300) ∧
  decode 0xBF01#16 = .ok (.jpV0 0xF01) ∧ decode 0xC10F#16 = .ok (.rnd 0x1 0x0F) ∧
  decode 0xDAB2#16 = .ok (.drw 0xA 0xB 0x2) ∧ decode 0xE1A1#16 = .ok (.sknp 0x1) ∧
  decode 0xF265#16 = .ok (.loadRegs 0x2) ∧ decode 0x5121#16 = .error .notWellFormed

/-- Decoding an encoded well-formed instruction gives it back, for every instruction and every operand value
(R84, R85). -/
def Obligations.DecodeInvertsEncode : Prop :=
  ∀ i : Instr, i.wellFormed = true → decode (encode i) = .ok i

/-- A decoded word is the encoding of its instruction, which is well formed: no bit of a defined word is ignored
(R94). -/
def Obligations.EncodeInvertsDecode : Prop :=
  ∀ (w : Word) (i : Instr), decode w = .ok i → encode i = w ∧ i.wellFormed = true

/-- The rejected words are exactly those R92 lists (D10). -/
def Obligations.DecodeRejectsExactly : Prop :=
  ∀ w : Word, decode w = .error .notWellFormed ↔ NotWellFormedWord w.toNat = true

/-- Decode follows the opcode table: a decoded word fits the instruction's row, and a word that fits a row decodes
within that row, but for 0x00E0 and 0x00EE, which come before the SYS row (R84, R85). -/
def Obligations.DecodeFollowsTable : Prop :=
  (∀ (w : Word) (i : Instr), decode w = .ok i → w &&& (tableRow i).1 = (tableRow i).2) ∧
  ∀ (w : Word) (j : Instr), w &&& (tableRow j).1 = (tableRow j).2 →
    ∃ i, decode w = .ok i ∧
      (tableRow i = tableRow j ∨ tableRow j = (0xF000#16, 0x0000#16) ∧ (w = 0x00E0#16 ∨ w = 0x00EE#16))

/-! ### The instruction cycle (30_encoding.md R86 to R91) -/

/-- When the word at PC decodes to i, the step is exec of i on the state with PC advanced by 2, and nothing around it
(R86, R88). -/
def Obligations.StepRunsDecodedInstruction : Prop :=
  ∀ (s : State) (w : Word) (i : Instr), s.pc.toNat ≤ 0xFFE →
    w.toNat = 256 * (Memory.read s.mem s.pc.toNat).toNat + (Memory.read s.mem (s.pc.toNat + 1)).toNat →
    decode w = .ok i → step s = exec i { s with pc := s.pc + 2 }

/-- The fetch bound: above 0xFFE the step raises InvalidProgramCounter(PC) and PC and everything else stay; otherwise
the fetch proceeds with the two bytes at PC (R87; what stays after the error is the spec's decision D13). -/
def Obligations.FetchBoundRaises : Prop :=
  ∀ s : State,
    (s.pc.toNat > 0xFFE → ∃ t, Raises (step s) (.invalidProgramCounter s.pc) {} s t) ∧
    (s.pc.toNat ≤ 0xFFE → ∃ w, s.fetch = some w ∧ w.toNat = s.wordNumber)

/-- A decode error, of either kind, reports the raw word and the address it was fetched from, and only PC has advanced
past it (R90). Which words these are is stated apart (`DecodeRejectsExactly`, `DecodeFollowsTable`). -/
def Obligations.DecodeErrorsAdvanceOnly : Prop :=
  ∀ (s : State) (w : Word), s.pc.toNat ≤ 0xFFE → w.toNat = s.wordNumber →
    (decode w = .error .notWellFormed →
      ∃ t, Raises (step s) (.notWellFormedInstruction w s.pc) { pc := True } s t ∧ t.pc = s.pc + 2) ∧
    ((∃ nnn, decode w = .ok (.sys nnn)) →
      ∃ t, Raises (step s) (.unsupportedInstruction w s.pc) { pc := True } s t ∧ t.pc = s.pc + 2)

/-- Every step answers a next state with Ok or with exactly the error the priority order gives, and never anything
else (60_exceptions.md R210 with D30, 00_scope.md R19). That an Err is a next state is DEDUCED, log 1; that a stack above
STACK_DEPTH, which no run reaches, counts as full in the overflow case is a DESIGN CHOICE, log 5. -/
def Obligations.StepAnswersExpectedError : Prop :=
  ∀ s : State, ∃ t, step s = .next t ∧
    t.lastResult = some (match s.expectedError with
      | none => .ok
      | some e => .err e)

/-! ### Control flow (40_control_flow.md) -/

/-- 00E0 turns every pixel off and touches nothing else (R110). -/
def Obligations.ClsTurnsPixelsOff : Prop :=
  EncodedAs 0x00E0 .cls ∧
  ∀ s : State, ∃ t, Completes .cls { frame := True } s t ∧
    ∀ y x, y < 32 → x < 64 → Framebuffer.pixel t.fb y x = false

/-- 00EE pops into PC, or raises CallStackUnderflow with its own address; a popped address above 0xFFE fails at the
next step (R111; the recorded address is the spec's decision D14). -/
def Obligations.RetPopsOrUnderflows : Prop :=
  EncodedAs 0x00EE .ret ∧
  (∀ s : State, s.stack = [] → ∃ t, Raises (exec .ret s) (.callStackUnderflow (s.pc - 2)) {} s t) ∧
  ∀ (s : State) (rest : List Word) (r : Word), s.stack = rest ++ [r] →
    ∃ t, Completes .ret { pc := True, stack := True } s t ∧ t.pc = r ∧ t.stack = rest ∧
      (r.toNat > 0xFFE → ∃ u, Raises (step t) (.invalidProgramCounter r) {} t u)

/-- 0nnn raises UnsupportedInstruction with its word and address and changes nothing else (R112; the class of these
words is the spec's decision D10). -/
def Obligations.SysRaisesUnsupported : Prop :=
  (∀ nnn : Addr12, nnn ≠ 0x0E0 → nnn ≠ 0x0EE → EncodedAs nnn.toNat (.sys nnn)) ∧
  ∀ (nnn : Addr12) (s : State) (w : Word), w.toNat = nnn.toNat →
    ∃ t, Raises (exec (.sys nnn) s) (.unsupportedInstruction w (s.pc - 2)) {} s t

/-- 1nnn sets PC to nnn; 0xFFF is accepted and fails at the next fetch (R113). -/
def Obligations.JpSetsPc : Prop :=
  ∀ nnn : Addr12, EncodedAs (0x1000 + nnn.toNat) (.jp nnn) ∧
    ∀ s : State, ∃ t, Completes (.jp nnn) { pc := True } s t ∧ t.pc.toNat = nnn.toNat ∧
      (nnn.toNat = 0xFFF → ∃ u, Raises (step t) (.invalidProgramCounter 0xFFF) {} t u)

/-- 2nnn pushes PC and jumps, or raises CallStackOverflow with its own address on a full stack; an unbounded stack is
never full (R114; the bounded default and the error are the spec's decision D5). -/
def Obligations.CallPushesOrOverflows : Prop :=
  ∀ nnn : Addr12, EncodedAs (0x2000 + nnn.toNat) (.call nnn) ∧
    (∀ (s : State) (depth : Nat), s.params.stackDepth = .bounded depth → s.stack.length = depth →
      ∃ t, Raises (exec (.call nnn) s) (.callStackOverflow (s.pc - 2)) {} s t) ∧
    ∀ s : State,
      (s.params.stackDepth = .unbounded ∨
        ∃ depth, s.params.stackDepth = .bounded depth ∧ s.stack.length < depth) →
      ∃ t, Completes (.call nnn) { pc := True, stack := True } s t ∧
        t.pc.toNat = nnn.toNat ∧ t.stack = s.stack ++ [s.pc]

/-- The four register skips, and the words beside 5xy0 and 9xy0 that are no instruction (R115, R116, R117, R118). -/
def Obligations.RegisterSkips : Prop :=
  ∀ (x y : RegIx) (kk : Byte),
    EncodedAs (0x3000 + 0x100 * x.toNat + kk.toNat) (.seImm x kk) ∧
    EncodedAs (0x4000 + 0x100 * x.toNat + kk.toNat) (.sneImm x kk) ∧
    EncodedAs (0x5000 + 0x100 * x.toNat + 0x10 * y.toNat) (.seReg x y) ∧
    EncodedAs (0x9000 + 0x100 * x.toNat + 0x10 * y.toNat) (.sneReg x y) ∧
    (∀ (n : Nibble) (u : Word), n ≠ 0 →
      (u.toNat = 0x5000 + 0x100 * x.toNat + 0x10 * y.toNat + n.toNat ∨
        u.toNat = 0x9000 + 0x100 * x.toNat + 0x10 * y.toNat + n.toNat) → decode u = .error .notWellFormed) ∧
    ∀ s : State,
      SkipsWhen (.seImm x kk) (s.readV x = kk) s ∧
      SkipsWhen (.sneImm x kk) (s.readV x ≠ kk) s ∧
      SkipsWhen (.seReg x y) (s.readV x = s.readV y) s ∧
      SkipsWhen (.sneReg x y) (s.readV x ≠ s.readV y) s

/-! ### Register operations (41_register_ops.md) -/

/-- 6xkk and 8xy0 write Vx alone, VF only as Vx (R130, R132). -/
def Obligations.LoadsWriteOneRegister : Prop :=
  ∀ (x y : RegIx) (kk : Byte),
    EncodedAs (0x6000 + 0x100 * x.toNat + kk.toNat) (.ldImm x kk) ∧
    EncodedAs (0x8000 + 0x100 * x.toNat + 0x10 * y.toNat) (.ldReg x y) ∧
    ∀ s : State,
      (∃ t, Completes (.ldImm x kk) { regs := (· = x) } s t ∧ t.readV x = kk) ∧
      ∃ t, Completes (.ldReg x y) { regs := (· = x) } s t ∧ t.readV x = s.readV y

/-- 7xkk adds modulo 256 and writes no flag (R131). -/
def Obligations.AddImmediateWraps : Prop :=
  ∀ (x : RegIx) (kk : Byte), EncodedAs (0x7000 + 0x100 * x.toNat + kk.toNat) (.addImm x kk) ∧
    ∀ s : State, ∃ t, Completes (.addImm x kk) { regs := (· = x) } s t ∧
      (t.readV x).toNat = ((s.readV x).toNat + kk.toNat) % 256

/-- 8xy1, 8xy2 and 8xy3, bit by bit, with VF unchanged unless it is Vx (R133, R134, R135; VF unchanged is the spec's
decision D7). -/
def Obligations.LogicLeavesFlag : Prop :=
  ∀ x y : RegIx,
    EncodedAs (0x8001 + 0x100 * x.toNat + 0x10 * y.toNat) (.orReg x y) ∧
    EncodedAs (0x8002 + 0x100 * x.toNat + 0x10 * y.toNat) (.andReg x y) ∧
    EncodedAs (0x8003 + 0x100 * x.toNat + 0x10 * y.toNat) (.xorReg x y) ∧
    ∀ s : State,
      (∃ t, Completes (.orReg x y) { regs := (· = x) } s t ∧
        ∀ b, (t.readV x).getLsbD b = ((s.readV x).getLsbD b || (s.readV y).getLsbD b)) ∧
      (∃ t, Completes (.andReg x y) { regs := (· = x) } s t ∧
        ∀ b, (t.readV x).getLsbD b = ((s.readV x).getLsbD b && (s.readV y).getLsbD b)) ∧
      ∃ t, Completes (.xorReg x y) { regs := (· = x) } s t ∧
        ∀ b, (t.readV x).getLsbD b = ((s.readV x).getLsbD b ^^ (s.readV y).getLsbD b)

/-- 8xy4: the sum modulo 256 in Vx and the carry in VF, which wins when Vx is VF (R136). -/
def Obligations.AddSetsCarry : Prop :=
  ∀ x y : RegIx, EncodedAs (0x8004 + 0x100 * x.toNat + 0x10 * y.toNat) (.addReg x y) ∧
    ∀ s : State, ∃ t, Completes (.addReg x y) { regs := fun r => r = x ∨ r = 0xF } s t ∧
      (x ≠ 0xF → (t.readV x).toNat = ((s.readV x).toNat + (s.readV y).toNat) % 256) ∧
      (t.readV 0xF).toNat = if (s.readV x).toNat + (s.readV y).toNat > 255 then 1 else 0

/-- 8xy5 and 8xy7: the difference modulo 256 in Vx and the not-borrow in VF, which wins when Vx is VF (R137, R138). -/
def Obligations.SubtractSetsNotBorrow : Prop :=
  ∀ x y : RegIx,
    EncodedAs (0x8005 + 0x100 * x.toNat + 0x10 * y.toNat) (.subReg x y) ∧
    EncodedAs (0x8007 + 0x100 * x.toNat + 0x10 * y.toNat) (.subnReg x y) ∧
    ∀ s : State,
      (∃ t, Completes (.subReg x y) { regs := fun r => r = x ∨ r = 0xF } s t ∧
        (x ≠ 0xF → (t.readV x).toNat = ((s.readV x).toNat + 256 - (s.readV y).toNat) % 256) ∧
        (t.readV 0xF).toNat = if (s.readV x).toNat ≥ (s.readV y).toNat then 1 else 0) ∧
      ∃ t, Completes (.subnReg x y) { regs := fun r => r = x ∨ r = 0xF } s t ∧
        (x ≠ 0xF → (t.readV x).toNat = ((s.readV y).toNat + 256 - (s.readV x).toNat) % 256) ∧
        (t.readV 0xF).toNat = if (s.readV y).toNat ≥ (s.readV x).toNat then 1 else 0

/-- 8xy6 and 8xyE: the source by the shift quirk, shifted by one into Vx, the bit out in VF, which wins when Vx is VF
(R141, R143, R145). -/
def Obligations.ShiftsByOneBit : Prop :=
  ∀ x y : RegIx,
    EncodedAs (0x8006 + 0x100 * x.toNat + 0x10 * y.toNat) (.shr x y) ∧
    EncodedAs (0x800E + 0x100 * x.toNat + 0x10 * y.toNat) (.shl x y) ∧
    ∀ (s : State) (src : Byte), src = (if s.cfg.shiftQuirk = true then s.readV x else s.readV y) →
      (∃ t, Completes (.shr x y) { regs := fun r => r = x ∨ r = 0xF } s t ∧
        (x ≠ 0xF → (t.readV x).toNat = src.toNat / 2) ∧ (t.readV 0xF).toNat = src.toNat % 2) ∧
      ∃ t, Completes (.shl x y) { regs := fun r => r = x ∨ r = 0xF } s t ∧
        (x ≠ 0xF → (t.readV x).toNat = 2 * src.toNat % 256) ∧ (t.readV 0xF).toNat = src.toNat / 128

/-- VF as a flag: an instruction of R21's list that completes leaves 0 or 1 there; no other instruction writes VF
unless it names VF as a destination (10_state.md R22, R23, both derived by the spec). -/
def Obligations.FlagSideEffects : Prop :=
  ∀ (i : Instr) (s t : State), exec i s = .next t →
    (writesFlag i = true → t.lastResult = some .ok → (t.readV 0xF).toNat ≤ 1) ∧
    (writesReg i 0xF = false → t.readV 0xF = s.readV 0xF)

/-! ### Addressing (42_addressing.md) -/

/-- Annn sets I to nnn, its upper bits to 0 (R150). -/
def Obligations.LoadIndexSetsI : Prop :=
  ∀ nnn : Addr12, EncodedAs (0xA000 + nnn.toNat) (.ldI nnn) ∧
    ∀ s : State, ∃ t, Completes (.ldI nnn) { index := True } s t ∧ t.i.toNat = nnn.toNat

/-- Bnnn jumps to nnn + V0 without reduction; a target above 0xFFE fails at the next fetch (R152; no reduction is the
spec's decision D19). -/
def Obligations.ComputedJumpAddsV0 : Prop :=
  ∀ nnn : Addr12, EncodedAs (0xB000 + nnn.toNat) (.jpV0 nnn) ∧
    ∀ s : State, ∃ t, Completes (.jpV0 nnn) { pc := True } s t ∧ t.pc.toNat = nnn.toNat + (s.readV 0x0).toNat ∧
      (nnn.toNat + (s.readV 0x0).toNat > 0xFFE → ∃ u, Raises (step t) (.invalidProgramCounter t.pc) {} t u)

/-- Fx1E adds Vx to I modulo 2^16 and writes no flag (R154, with D20). -/
def Obligations.AddIndexWraps : Prop :=
  ∀ x : RegIx, EncodedAs (0xF01E + 0x100 * x.toNat) (.addI x) ∧
    ∀ s : State, ∃ t, Completes (.addI x) { index := True } s t ∧
      t.i.toNat = (s.i.toNat + (s.readV x).toNat) % 65536

/-- Fx29 sets I to 5 times the digit; above 0x0F by the parameter FX29_WIDE, for both its values (R156; the
parameter is the spec's D8). -/
def Obligations.DigitAddressIsFiveTimes : Prop :=
  ∀ x : RegIx, EncodedAs (0xF029 + 0x100 * x.toNat) (.ldF x) ∧
    ∀ s : State, ∃ t, Completes (.ldF x) { index := True } s t ∧
      (((s.readV x).toNat ≤ 0x0F ∨ s.params.fx29Wide = .unmasked) → t.i.toNat = 5 * (s.readV x).toNat) ∧
      ((s.readV x).toNat > 0x0F → s.params.fx29Wide = .masked → t.i.toNat = 5 * ((s.readV x).toNat % 16))

/-! ### Random (43_random.md) -/

/-- Cxkk writes one drawn byte AND kk, and draws exactly one (R160, R161; the draw as a free value indexed by a
counter is the model's DESIGN CHOICE, log 7, and D18). It holds whatever the byte is: a bit clear in kk is clear. -/
def Obligations.RandomIsMasked : Prop :=
  ∀ (x : RegIx) (kk : Byte), EncodedAs (0xC000 + 0x100 * x.toNat + kk.toNat) (.rnd x kk) ∧
    ∀ s : State, ∃ t, Completes (.rnd x kk) { regs := (· = x), draws := True } s t ∧
      t.readV x = Config.randomByte s.draws &&& kk ∧ t.draws = s.draws + 1 ∧
      ∀ b, kk.getLsbD b = false → (t.readV x).getLsbD b = false

/-! ### Draw (44_draw.md) -/

/-- Dxyn as a law of pixels: when the n bytes at I exist, exactly the pixels the sprite covers are toggled, and VF is
1 exactly when a covered pixel was on before; otherwise MemoryAddressFault(I, n) before any change (R166, R167, R168,
R169; the fault is the spec's decision D4, the check of clipped rows D25, bit 7 as the leftmost pixel D28). -/
def Obligations.DrawTogglesCoveredPixels : Prop :=
  ∀ (x y : RegIx) (n : Nibble),
    EncodedAs (0xD000 + 0x100 * x.toNat + 0x10 * y.toNat + n.toNat) (.drw x y n) ∧
    (∀ s : State, n.toNat > 0 → s.i.toNat + n.toNat - 1 > 0xFFF →
      ∃ t, Raises (exec (.drw x y n) s) (.memoryAddressFault s.i n.toNat) {} s t) ∧
    ∀ s : State, (n.toNat > 0 → s.i.toNat + n.toNat - 1 ≤ 0xFFF) →
      ∃ t, Completes (.drw x y n) { regs := (· = 0xF), frame := True } s t ∧
        (∀ py px, py < 32 → px < 64 →
          (Framebuffer.pixel t.fb py px ≠ Framebuffer.pixel s.fb py px ↔ SpriteCovers s x y n py px)) ∧
        (t.readV 0xF = 0 ∨ t.readV 0xF = 1) ∧
        (t.readV 0xF = 1 ↔ ∃ py px, SpriteCovers s x y n py px ∧ Framebuffer.pixel s.fb py px = true)

/-- Dxy0 reads no memory, changes no pixel and writes VF = 0, for every I (R171, the spec's decision D9). -/
def Obligations.DrawOfNoRowsClearsFlag : Prop :=
  ∀ x y : RegIx, EncodedAs (0xD000 + 0x100 * x.toNat + 0x10 * y.toNat) (.drw x y 0) ∧
    ∀ s : State, ∃ t, Completes (.drw x y 0) { regs := (· = 0xF) } s t ∧ t.readV 0xF = 0

/-- Drawing the same sprite at the same origin twice restores the framebuffer: the second draw completes, and reports a
collision exactly when the first turned a pixel on (R172, derived by the spec). The origin is the same although VF
changed between the draws: that is the hypothesis on the coordinates. -/
def Obligations.DrawTwiceRestores : Prop :=
  ∀ (x y : RegIx) (n : Nibble) (s t : State), (n.toNat > 0 → s.i.toNat + n.toNat - 1 ≤ 0xFFF) →
    exec (.drw x y n) s = .next t →
    (t.readV x).toNat % 64 = (s.readV x).toNat % 64 → (t.readV y).toNat % 32 = (s.readV y).toNat % 32 →
    ∃ u, exec (.drw x y n) t = .next u ∧ u.lastResult = some .ok ∧ u.fb = s.fb ∧
      (u.readV 0xF = 1 ↔ ∃ py px, Framebuffer.pixel s.fb py px = false ∧ Framebuffer.pixel t.fb py px = true)

/-! ### Input (45_input.md) -/

/-- Ex9E and ExA1 skip by the key Vx & 0x0F (R180, R181). -/
def Obligations.KeySkips : Prop :=
  ∀ x : RegIx,
    EncodedAs (0xE09E + 0x100 * x.toNat) (.skp x) ∧ EncodedAs (0xE0A1 + 0x100 * x.toNat) (.sknp x) ∧
    ∀ s : State,
      SkipsWhen (.skp x) (s.keys[(s.readV x).toNat % 16]? = some true) s ∧
      SkipsWhen (.sknp x) (s.keys[(s.readV x).toNat % 16]? = some false) s

/-! ### Timers and miscellany (46_timers_misc.md) -/

/-- Fx07, Fx15 and Fx18 move a byte between Vx and a timer (R185, R186, R187). -/
def Obligations.TimerAccess : Prop :=
  ∀ x : RegIx,
    EncodedAs (0xF007 + 0x100 * x.toNat) (.ldVxDt x) ∧ EncodedAs (0xF015 + 0x100 * x.toNat) (.ldDtVx x) ∧
    EncodedAs (0xF018 + 0x100 * x.toNat) (.ldStVx x) ∧
    ∀ s : State,
      (∃ t, Completes (.ldVxDt x) { regs := (· = x) } s t ∧ t.readV x = s.dt) ∧
      (∃ t, Completes (.ldDtVx x) { delay := True } s t ∧ t.dt = s.readV x) ∧
      ∃ t, Completes (.ldStVx x) { sound := True } s t ∧ t.st = s.readV x

/-- Fx0A writes the lowest held key; with no key held it completes with PC moved back by 2 alone (R188). -/
def Obligations.WaitForKeyTakesLowest : Prop :=
  ∀ x : RegIx, EncodedAs (0xF00A + 0x100 * x.toNat) (.ldVxK x) ∧
    (∀ (s : State) (k : Nat), s.keys[k]? = some true → (∀ j, j < k → s.keys[j]? = some false) →
      ∃ t, Completes (.ldVxK x) { regs := (· = x) } s t ∧ (t.readV x).toNat = k) ∧
    ∀ s : State, (∀ j, j < 16 → s.keys[j]? = some false) →
      ∃ t, Completes (.ldVxK x) { pc := True } s t ∧ t.pc = s.pc - 2

/-- The two fixed points of a step: a jump to itself, and Fx0A with no key held, change no field but the recorded
answer (70_reset_and_hazards.md R236, 46_timers_misc.md R189 with D24). -/
def Obligations.FixedPointsOfStep : Prop :=
  ∀ s : State, s.pc.toNat ≤ 0xFFE →
    (s.wordNumber = 0x1000 + s.pc.toNat ∨
      s.wordNumber / 0x1000 = 0xF ∧ s.wordNumber % 0x100 = 0x0A ∧ ∀ j, j < 16 → s.keys[j]? = some false) →
    ∃ t, step s = .next t ∧ t.lastResult = some .ok ∧ t.faultRecord = s.faultRecord ∧ Keeps {} s t

/-- Fx33 stores the hundreds, tens and units of Vx at I, I + 1, I + 2 and nothing else, or raises MemoryAddressFault
before any byte is written (R191). Memory is in its canonical form. -/
def Obligations.BcdStoresDigits : Prop :=
  ∀ x : RegIx, EncodedAs (0xF033 + 0x100 * x.toNat) (.ldB x) ∧
    (∀ s : State, s.i.toNat + 2 > 0xFFF → ∃ t, Raises (exec (.ldB x) s) (.memoryAddressFault s.i 3) {} s t) ∧
    ∀ s : State, Memory.wf s.mem → s.i.toNat + 2 ≤ 0xFFF →
      ∃ t, Completes (.ldB x) { bytes := fun a => s.indexAddress ≤ a ∧ a < s.indexAddress + 3 } s t ∧
        (Memory.read t.mem s.i.toNat).toNat = (s.readV x).toNat / 100 ∧
        (Memory.read t.mem (s.i.toNat + 1)).toNat = (s.readV x).toNat / 10 % 10 ∧
        (Memory.read t.mem (s.i.toNat + 2)).toNat = (s.readV x).toNat % 10

/-- Fx55 stores V0 to Vx at I to I + x and nothing else, then I by the load/store quirk, or raises MemoryAddressFault
before any change (R195, R196; the fault is the spec's decision D4, the width of the advance D20). Memory is in its
canonical form. -/
def Obligations.BulkStoreWritesRegisters : Prop :=
  ∀ x : RegIx, EncodedAs (0xF055 + 0x100 * x.toNat) (.storeRegs x) ∧
    (∀ s : State, s.i.toNat + x.toNat > 0xFFF →
      ∃ t, Raises (exec (.storeRegs x) s) (.memoryAddressFault s.i (x.toNat + 1)) {} s t) ∧
    ∀ s : State, Memory.wf s.mem → s.i.toNat + x.toNat ≤ 0xFFF →
      ∃ t, Completes (.storeRegs x)
          { bytes := fun a => s.indexAddress ≤ a ∧ a < s.indexAddress + (x.toNat + 1), index := True } s t ∧
        (∀ k : RegIx, k.toNat ≤ x.toNat → Memory.read t.mem (s.i.toNat + k.toNat) = s.readV k) ∧
        t.i.toNat = if s.cfg.loadStoreQuirk = true then s.i.toNat else s.i.toNat + x.toNat + 1

/-- Fx65 loads V0 to Vx from I to I + x, then I by the load/store quirk, or raises MemoryAddressFault before any change
(R195, R197; the fault is the spec's decision D4, the width of the advance D20). -/
def Obligations.BulkLoadReadsMemory : Prop :=
  ∀ x : RegIx, EncodedAs (0xF065 + 0x100 * x.toNat) (.loadRegs x) ∧
    (∀ s : State, s.i.toNat + x.toNat > 0xFFF →
      ∃ t, Raises (exec (.loadRegs x) s) (.memoryAddressFault s.i (x.toNat + 1)) {} s t) ∧
    ∀ s : State, s.i.toNat + x.toNat ≤ 0xFFF →
      ∃ t, Completes (.loadRegs x) { regs := fun r => r.toNat ≤ x.toNat, index := True } s t ∧
        (∀ k : RegIx, k.toNat ≤ x.toNat → t.readV k = Memory.read s.mem (s.i.toNat + k.toNat)) ∧
        t.i.toNat = if s.cfg.loadStoreQuirk = true then s.i.toNat else s.i.toNat + x.toNat + 1

/-! ### Errors (60_exceptions.md) -/

/-- An execution error is precise: every field is as it was when the instruction began, PC included, which is a + 2
(30_encoding.md R91, with D4, D5 and D14). -/
def Obligations.ErrorsArePrecise : Prop :=
  ∀ (i : Instr) (s t : State) (e : StepError), exec i s = .next t → t.lastResult = some (.err e) →
    Raises (exec i s) e {} s t

/-- Every run of transactions goes to its end, an error on the way included, and the first error stays on record to the
end (R211; that the record keeps the first error is DEDUCED, log 2). A step that answers an error puts that error into an
empty record, and one that answers Ok leaves the record (R209, 10_state.md R40). -/
def Obligations.FaultRecordKeepsFirstError : Prop :=
  (∀ (ts : List Transaction) (s : State), ∃ t, runTransactions ts s = .next t ∧
    ∀ e, s.faultRecord = some e → t.faultRecord = some e) ∧
  ∀ s t : State, step s = .next t →
    (∀ e, s.faultRecord = none → t.lastResult = some (.err e) → t.faultRecord = some e) ∧
    (t.lastResult = some .ok → t.faultRecord = s.faultRecord)

/-- A run that has recorded a fault is never a successful run, however it goes on (R211, R209 with D12). -/
def Obligations.FaultedRunNeverSuccessful : Prop :=
  ∀ (before after : List Transaction) (s t : State) (e : StepError),
    runTransactions (before ++ [.step]) s = .next t → t.lastResult = some (.err e) →
    ¬ SuccessfulRun (before ++ .step :: after) s

/-! ### The host's transactions (10_state.md R45 to R53) -/

/-- One tick takes each timer down by one, saturating at 0, and changes nothing else (60_exceptions.md R212, R213). -/
def Obligations.TickSaturatesAtZero : Prop :=
  ∀ s : State, ∃ t, transact .tick s = .next t ∧ Keeps { delay := True, sound := True } s t ∧
    t.lastResult = s.lastResult ∧ t.faultRecord = s.faultRecord ∧
    t.dt.toNat = s.dt.toNat - 1 ∧ t.st.toNat = s.st.toNat - 1

/-- The host can set any subset of the key flags to any values, and changes nothing else by it (R47). -/
def Obligations.KeyWriteReachesAnyFlags : Prop :=
  ∀ (s : State) (keys : Vector Bool 16), ∃ updates,
    transact (.writeKeys updates) s = .next { s with keys := keys } ∧
    ∀ p ∈ updates, s.keys[p.1.toNat]? ≠ some p.2

/-- What the host reads: the export of 2048 cells, row-major, each the fixed on or off byte of its pixel (R34; the two
bytes are OPEN, D16, log 8), one row of pixels or none for a row out of range (R53, D17), DT, ST and the answer of the
last step (R49). A read changes nothing. -/
def Obligations.FrameExportIsRowMajor : Prop :=
  ∀ s : State,
    (∃ cells, s.answer .frame = .frame cells ∧ cells.length = 2048 ∧
      ∀ y x, y < 32 → x < 64 →
        cells[y * 64 + x]? = some (if Framebuffer.pixel s.fb y x = true then Config.pixelOn else Config.pixelOff)) ∧
    (∀ y, y < 32 → ∃ pixels, s.answer (.row y) = .row (some pixels) ∧
      ∀ x, x < 64 → pixels[x]? = some (Framebuffer.pixel s.fb y x)) ∧
    (∀ y, y ≥ 32 → s.answer (.row y) = .row none) ∧
    s.answer .delayTimer = .timer s.dt ∧ s.answer .soundTimer = .timer s.st ∧
    s.answer .lastResult = .result s.lastResult ∧
    ∀ request, transact (.read request) s = .next s

/-! ### Reset (70_reset_and_hazards.md) -/

/-- Construction from an image that fits: under either RESET_POLICY, memory holds FONT, zeros, the image from 0x200 and
zeros, PC is 0x200, the stack and the fault record are empty, and cfg and the parameters are as supplied; V, I, DT, ST,
FB and K are zero, off or released under the default policy, and the drawn values under a draw (R230, R231, R232,
00_scope.md R14; the zero values and the policy are the spec's decision D2, log 3, FONT is its parameter D3). -/
def Obligations.ConstructionLaysOutMemory : Prop :=
  ∀ (c : Construction) (image : List Byte), c.image = .bytes image → image.length ≤ 3584 →
    ∃ t, construct c = .next t ∧
      (∀ a (h : a < 80), Memory.read t.mem a = c.font[a]) ∧
      (∀ a, 80 ≤ a → a < 0x200 → Memory.read t.mem a = 0) ∧
      (∀ k (h : k < image.length), Memory.read t.mem (0x200 + k) = image[k]) ∧
      (∀ a, 0x200 + image.length ≤ a → a ≤ 0xFFF → Memory.read t.mem a = 0) ∧
      t.pc = 0x200 ∧ t.stack = [] ∧ t.cfg = c.cfg ∧ t.params = c.params ∧ t.faultRecord = none ∧
      (c.resetPolicy = .zero →
        (∀ r, t.readV r = 0) ∧ t.i = 0 ∧ t.dt = 0 ∧ t.st = 0 ∧
        (∀ y x, Framebuffer.pixel t.fb y x = false) ∧ ∀ k, k < 16 → t.keys[k]? = some false) ∧
      ∀ d, c.resetPolicy = .draw d →
        (∀ r : RegIx, d.v[r.toNat]? = some (t.readV r)) ∧ t.i = d.i ∧ t.dt = d.dt ∧ t.st = d.st ∧ t.fb = d.fb ∧
        t.keys = d.keys

/-- The three outcomes of construction, and the first step of an empty image (R233; rejecting a long image is the
spec's decision D15). -/
def Obligations.ConstructionOutcomes : Prop :=
  ∀ c : Construction,
    (∀ cause, c.image = .unreadable cause → construct c = .fault (.ioError cause)) ∧
    (∀ image, c.image = .bytes image → image.length > 3584 → construct c = .fault (.programTooLarge image.length)) ∧
    (∀ image, c.image = .bytes image → image.length ≤ 3584 → ∃ t, construct c = .next t) ∧
    ∀ t, c.image = .bytes [] → construct c = .next t →
      ∃ u, Raises (step t) (.unsupportedInstruction 0x0000 0x200) { pc := True } t u ∧ u.pc = 0x202

/-! ### Invariants -/

/-- The invariants hold at reset: canonical memory, the stack within its depth, an answered error on record, and PC and
return addresses in range (10_state.md R26, R40). -/
def Obligations.InvariantsHoldAtReset : Prop := State.reset.Inv ∧ State.reset.PcBounded

/-- Every step keeps the invariant: memory canonical, |S| at most STACK_DEPTH, an answered error on record (10_state.md
R40, 60_exceptions.md R209). -/
def Obligations.StepKeepsInvariant : Prop :=
  ∀ s t : State, s.Inv → step s = .next t → t.Inv

/-- Every step keeps PC at most 0x10FE and every return address at most 0x1000, so PC arithmetic never wraps
(10_state.md R26, with D19). -/
def Obligations.StepKeepsPcBounded : Prop :=
  ∀ s t : State, s.PcBounded → step s = .next t → t.PcBounded

/-- Every run of the host's transactions from a constructed machine has the invariants at its end (R26, R40, R52). -/
def Obligations.RunsFromConstructionKeepInvariants : Prop :=
  ∀ (c : Construction) (s t : State) (ts : List Transaction),
    construct c = .next s → runTransactions ts s = .next t → t.Inv ∧ t.PcBounded

/-! ### Whole-machine rules -/

/-- No instruction writes a register outside R22's last column. -/
def Obligations.RegisterWriters : Prop :=
  ∀ (i : Instr) (s t : State) (r : RegIx), exec i s = .next t → writesReg i r = false → t.readV r = s.readV r

/-- Each timer is set only by its own instruction and by its own host write; a tick takes it down by at most 1 and never
below 0; a step is no tick (10_state.md R32). A host timer write changes that timer and nothing else (R48, the spec's
decision D17); key writes and reads change neither timer (R47, R49). -/
def Obligations.TimersChangeOnlyBySetting : Prop :=
  ∀ s t : State,
    (transact .step s = .next t →
      (t.dt ≠ s.dt → s.wordNumber / 0x1000 = 0xF ∧ s.wordNumber % 0x100 = 0x15) ∧
      (t.st ≠ s.st → s.wordNumber / 0x1000 = 0xF ∧ s.wordNumber % 0x100 = 0x18)) ∧
    (transact .tick s = .next t →
      (t.dt.toNat ≤ s.dt.toNat ∧ s.dt.toNat ≤ t.dt.toNat + 1) ∧ t.st.toNat ≤ s.st.toNat ∧ s.st.toNat ≤ t.st.toNat + 1) ∧
    (∀ value, transact (.writeDelayTimer value) s = .next { s with dt := value }) ∧
    (∀ value, transact (.writeSoundTimer value) s = .next { s with st := value }) ∧
    ∀ tr, ((∃ updates, tr = .writeKeys updates) ∨ ∃ request, tr = .read request) → transact tr s = .next t →
      t.dt = s.dt ∧ t.st = s.st

/-- No step and no transaction but a key write changes K; nothing changes cfg or the parameters (10_state.md R35, R36,
with D26 and D27). -/
def Obligations.KeysAndConfigurationConstant : Prop :=
  ∀ (tr : Transaction) (s t : State), transact tr s = .next t →
    t.cfg = s.cfg ∧ t.params = s.params ∧ ((∀ updates, tr ≠ .writeKeys updates) → t.keys = s.keys)

/-- A step changes FB only in 00E0 and Dxyn, I only in its five writers, the call stack only in 2nnn and 00EE
(10_state.md R28, R29, R33, 44_draw.md R173). -/
def Obligations.FrameIndexStackWriters : Prop :=
  ∀ (i : Instr) (s t : State), exec i s = .next t →
    (t.fb ≠ s.fb → i = .cls ∨ ∃ x y n, i = .drw x y n) ∧
    (t.i ≠ s.i → (∃ nnn, i = .ldI nnn) ∨ ∃ x, i = .addI x ∨ i = .ldF x ∨
      (i = .storeRegs x ∨ i = .loadRegs x) ∧ s.cfg.loadStoreQuirk = false) ∧
    (t.stack ≠ s.stack → i = .ret ∨ ∃ nnn, i = .call nnn)

/-- Memory changes only in Fx33 and Fx55, and only at the bytes they address (20_memory.md R67, R68, with D4). Memory
is in its canonical form. -/
def Obligations.MemoryWriters : Prop :=
  ∀ (i : Instr) (s t : State) (a : Nat), Memory.wf s.mem → exec i s = .next t →
    Memory.read t.mem a ≠ Memory.read s.mem a →
    ∃ x, (i = .ldB x ∧ s.i.toNat ≤ a ∧ a ≤ s.i.toNat + 2 ∨
      i = .storeRegs x ∧ s.i.toNat ≤ a ∧ a ≤ s.i.toNat + x.toNat) ∧ a ≤ 0xFFF

/-- No instruction but Cxkk draws a random byte (43_random.md R161; the counter of draws is the model's, log 7). -/
def Obligations.OnlyRandomDraws : Prop :=
  ∀ (i : Instr) (s t : State), exec i s = .next t → (∀ x kk, i ≠ .rnd x kk) → t.draws = s.draws

/-- ST is read by no instruction: replacing it before replaces it after, or is overwritten by Fx18, and nothing else
differs (10_state.md R31). -/
def Obligations.SoundTimerNeverRead : Prop :=
  ∀ (i : Instr) (s t : State) (v : Byte), exec i s = .next t →
    ∃ v', exec i { s with st := v } = .next { t with st := v' } ∧
      ((∀ x, i ≠ .ldStVx x) → v' = v) ∧ ((∃ x, i = .ldStVx x) → v' = t.st)

/-- The key flags are read by Ex9E, ExA1 and Fx0A alone: for every other instruction, other keys before are other keys
after and nothing else differs (10_state.md R35). -/
def Obligations.KeysReadOnlyByKeyInstructions : Prop :=
  ∀ (i : Instr) (s t : State) (keys : Vector Bool 16), readsKeys i = false → exec i s = .next t →
    exec i { s with keys := keys } = .next { t with keys := keys }

/-! ### Memory (20_memory.md) -/

/-- A byte written at a is seen by the next fetch, in bits 15:8 when a is PC and in bits 7:0 when a is PC + 1, odd PC
included (R66, R75, derived by the spec, with D21). Memory is in its canonical form. -/
def Obligations.StoreSeenByNextFetch : Prop :=
  ∀ (s : State) (a : Nat) (b : Byte), Memory.wf s.mem → a ≤ 0xFFF → s.pc.toNat ≤ 0xFFE →
    ∃ w, State.fetch { s with mem := Memory.write s.mem a b } = some w ∧
      w.toNat / 256 = (if a = s.pc.toNat then b else Memory.read s.mem s.pc.toNat).toNat ∧
      w.toNat % 256 = (if a = s.pc.toNat + 1 then b else Memory.read s.mem (s.pc.toNat + 1)).toNat

/-- Equal memories are equal data: two canonical memories that read alike are the same list (the model's
representation of R60's byte sequence). -/
def Obligations.CanonicalMemoryExtensional : Prop :=
  ∀ m m' : Memory, Memory.wf m → Memory.wf m' → (∀ a, Memory.read m a = Memory.read m' a) → m = m'

/-! ### Key writes in general (10_state.md R47) -/

/-- Every key write, whatever flags it names, gives each named flag its value, leaves the other flags, and changes nothing
else (R47). That a later value wins where a write names a key twice is a DESIGN CHOICE, log 12. -/
def Obligations.KeyWriteSetsNamedFlags : Prop :=
  ∀ (s : State) (updates : List (Nibble × Bool)), ∃ keys : Vector Bool 16,
    transact (.writeKeys updates) s = .next { s with keys := keys } ∧
    (∀ (before after : List (Nibble × Bool)) (k : Nibble) (held : Bool), updates = before ++ (k, held) :: after →
      (∀ p ∈ after, p.1 ≠ k) → keys[k.toNat]? = some held) ∧
    ∀ k : Nibble, (∀ p ∈ updates, p.1 ≠ k) → keys[k.toNat]? = s.keys[k.toNat]?
end

