-- ==== Sys2Proof/Laws/Decode.lean ====
section
/-! SUPPORT. The fields of composed words as numbers, and what decode sees of an encoding. -/

namespace Sys2Proof

/-- Concatenation as arithmetic (00_scope.md R15). -/
theorem toNat_append_eq {m n : Nat} (a : BitVec m) (b : BitVec n) :
    (a ++ b).toNat = a.toNat * 2 ^ n + b.toNat := by
  rw [BitVec.toNat_append, Nat.shiftLeft_eq, Nat.mul_comm, ← Nat.two_pow_add_eq_or_of_lt b.isLt]

/-- A bit field as arithmetic (00_scope.md R15). -/
theorem toNat_field {m : Nat} (a : BitVec m) (lo len : Nat) :
    (a.extractLsb' lo len).toNat = a.toNat / 2 ^ lo % 2 ^ len := by
  rw [BitVec.extractLsb'_toNat, Nat.shiftRight_eq_div_pow]

theorem Word.toNat_ofNibbles (f x y n : Nibble) :
    (Word.ofNibbles f x y n).toNat = 0x1000 * f.toNat + 0x100 * x.toNat + 0x10 * y.toNat + n.toNat := by
  have : (Word.ofNibbles f x y n).toNat = ((f.toNat * 2 ^ 4 + x.toNat) * 2 ^ 4 + y.toNat) * 2 ^ 4 + n.toNat := by
    rw [← toNat_append_eq, ← toNat_append_eq, ← toNat_append_eq]; rfl
  omega

theorem Word.toNat_ofXKK (f x : Nibble) (kk : Byte) :
    (Word.ofXKK f x kk).toNat = 0x1000 * f.toNat + 0x100 * x.toNat + kk.toNat := by
  have : (Word.ofXKK f x kk).toNat = (f.toNat * 2 ^ 4 + x.toNat) * 2 ^ 8 + kk.toNat := by
    rw [← toNat_append_eq, ← toNat_append_eq]; rfl
  omega

theorem Word.toNat_ofNNN (f : Nibble) (nnn : Addr12) :
    (Word.ofNNN f nnn).toNat = 0x1000 * f.toNat + nnn.toNat := by
  have : (Word.ofNNN f nnn).toNat = f.toNat * 2 ^ 12 + nnn.toNat := by rw [← toNat_append_eq]; rfl
  omega

/-- The number of a word is 256 times its byte at PC plus its byte at PC + 1 (20_memory.md R66). -/
theorem Word.toNat_ofBytes (hi lo : Byte) : (Word.ofBytes hi lo).toNat = 256 * hi.toNat + lo.toNat := by
  have : (Word.ofBytes hi lo).toNat = hi.toNat * 2 ^ 8 + lo.toNat := by rw [← toNat_append_eq]; rfl
  omega

theorem Word.toNat_family (w : Word) : w.family.toNat = w.toNat / 0x1000 % 16 := toNat_field w 12 4
theorem Word.toNat_fieldX (w : Word) : w.fieldX.toNat = w.toNat / 0x100 % 16 := toNat_field w 8 4
theorem Word.toNat_fieldY (w : Word) : w.fieldY.toNat = w.toNat / 0x10 % 16 := toNat_field w 4 4
theorem Word.toNat_fieldN (w : Word) : w.fieldN.toNat = w.toNat % 16 := by
  simp [Word.fieldN]
theorem Byte.toNat_hiNibble (b : Byte) : (Byte.hiNibble b).toNat = b.toNat / 0x10 % 16 := toNat_field b 4 4
theorem Byte.toNat_loNibble (b : Byte) : (Byte.loNibble b).toNat = b.toNat % 16 := by
  simp [Byte.loNibble]
theorem Word.toNat_hiByte (w : Word) : w.hiByte.toNat = w.toNat / 0x100 % 0x100 := toNat_field w 8 8
theorem Word.toNat_loByte (w : Word) : w.loByte.toNat = w.toNat % 0x100 := by
  simp [Word.loByte]

/-- kk = 16 y + n (30_encoding.md R82). -/
theorem toNat_fieldKK (y n : Nibble) : (fieldKK y n).toNat = 0x10 * y.toNat + n.toNat := by
  have : (fieldKK y n).toNat = y.toNat * 2 ^ 4 + n.toNat := by rw [← toNat_append_eq]; rfl
  omega

/-- nnn = 256 x + 16 y + n (R82). -/
theorem toNat_fieldNNN (x y n : Nibble) :
    (fieldNNN x y n).toNat = 0x100 * x.toNat + 0x10 * y.toNat + n.toNat := by
  have : (fieldNNN x y n).toNat = (x.toNat * 2 ^ 4 + y.toNat) * 2 ^ 4 + n.toNat := by
    rw [← toNat_append_eq, ← toNat_append_eq]; rfl
  omega

@[simp] theorem Word.family_ofNibbles (f x y n : Nibble) : (Word.ofNibbles f x y n).family = f := by
  have := f.isLt; have := x.isLt; have := y.isLt; have := n.isLt
  apply BitVec.eq_of_toNat_eq; rw [Word.toNat_family, Word.toNat_ofNibbles]; omega

@[simp] theorem Word.fieldX_ofNibbles (f x y n : Nibble) : (Word.ofNibbles f x y n).fieldX = x := by
  have := f.isLt; have := x.isLt; have := y.isLt; have := n.isLt
  apply BitVec.eq_of_toNat_eq; rw [Word.toNat_fieldX, Word.toNat_ofNibbles]; omega

@[simp] theorem Word.fieldY_ofNibbles (f x y n : Nibble) : (Word.ofNibbles f x y n).fieldY = y := by
  have := f.isLt; have := x.isLt; have := y.isLt; have := n.isLt
  apply BitVec.eq_of_toNat_eq; rw [Word.toNat_fieldY, Word.toNat_ofNibbles]; omega

@[simp] theorem Word.fieldN_ofNibbles (f x y n : Nibble) : (Word.ofNibbles f x y n).fieldN = n := by
  have := f.isLt; have := x.isLt; have := y.isLt; have := n.isLt
  apply BitVec.eq_of_toNat_eq; rw [Word.toNat_fieldN, Word.toNat_ofNibbles]; omega

/-- Every word is its four nibbles. -/
theorem Word.ofNibbles_fields (w : Word) : Word.ofNibbles w.family w.fieldX w.fieldY w.fieldN = w := by
  have := w.isLt
  apply BitVec.eq_of_toNat_eq
  rw [Word.toNat_ofNibbles, Word.toNat_family, Word.toNat_fieldX, Word.toNat_fieldY, Word.toNat_fieldN]
  omega

/-- Every 8-bit field is its two nibbles. -/
@[simp] theorem fieldKK_nibbles (kk : Byte) : fieldKK (Byte.hiNibble kk) (Byte.loNibble kk) = kk := by
  have := kk.isLt
  apply BitVec.eq_of_toNat_eq
  rw [toNat_fieldKK, Byte.toNat_hiNibble, Byte.toNat_loNibble]; omega

/-- Every 12-bit field is its three nibbles. -/
@[simp] theorem fieldNNN_nibbles (nnn : Addr12) :
    fieldNNN (nnn.extractLsb' 8 4) (nnn.extractLsb' 4 4) (nnn.extractLsb' 0 4) = nnn := by
  have := nnn.isLt
  apply BitVec.eq_of_toNat_eq
  rw [toNat_fieldNNN, toNat_field, toNat_field, toNat_field]; omega

theorem Word.ofXKK_eq (f x : Nibble) (kk : Byte) :
    Word.ofXKK f x kk = Word.ofNibbles f x (Byte.hiNibble kk) (Byte.loNibble kk) := by
  have := kk.isLt
  apply BitVec.eq_of_toNat_eq
  rw [Word.toNat_ofXKK, Word.toNat_ofNibbles, Byte.toNat_hiNibble, Byte.toNat_loNibble]; omega

theorem Word.ofNNN_eq (f : Nibble) (nnn : Addr12) :
    Word.ofNNN f nnn = Word.ofNibbles f (nnn.extractLsb' 8 4) (nnn.extractLsb' 4 4) (nnn.extractLsb' 0 4) := by
  have := nnn.isLt
  apply BitVec.eq_of_toNat_eq
  rw [Word.toNat_ofNNN, Word.toNat_ofNibbles, toNat_field, toNat_field, toNat_field]; omega

/-- The two bytes of a word give the word back (20_memory.md R66). -/
@[simp] theorem Word.ofBytes_bytes (w : Word) : Word.ofBytes w.hiByte w.loByte = w := by
  have := w.isLt
  apply BitVec.eq_of_toNat_eq
  rw [Word.toNat_ofBytes, Word.toNat_hiByte, Word.toNat_loByte]; omega

@[simp] theorem decode_ofNibbles (f x y n : Nibble) : decode (Word.ofNibbles f x y n) = decodeNibbles f x y n := by
  simp [decode]

/-- A word of format NNN decodes by its family, in every family. -/
theorem decode_ofNNN (f : Nibble) (nnn : Addr12) :
    decode (Word.ofNNN f nnn) =
      decodeNibbles f (nnn.extractLsb' 8 4) (nnn.extractLsb' 4 4) (nnn.extractLsb' 0 4) := by
  rw [Word.ofNNN_eq, decode_ofNibbles]

/-- A word of format XKK or XOP decodes by its family. -/
theorem decode_ofXKK (f x : Nibble) (kk : Byte) :
    decode (Word.ofXKK f x kk) = decodeNibbles f x (Byte.hiNibble kk) (Byte.loNibble kk) := by
  rw [Word.ofXKK_eq, decode_ofNibbles]

end Sys2Proof
end

