-- ==== Sys2Proof/Laws/Memory.lean ====
section
/-! SUPPORT. Memory: read after write, the canonical form is kept, and what the checked accesses can answer. -/

namespace Sys2Proof.Machine

@[simp] theorem Memory.read_nil (a : Nat) : Memory.read [] a = Memory.unlisted a := rfl

theorem Memory.read_cons (c : Host.Cell) (m : Memory) (a : Nat) :
    Memory.read (c :: m) a = if c.1 = a then c.2 else Memory.read m a := rfl

/-- An address below every listed one reads as unlisted. -/
theorem Memory.read_of_lt {m : Memory} {a : Nat} (h : ∀ c ∈ m, a < c.1) : Memory.read m a = Memory.unlisted a := by
  induction m with
  | nil => rfl
  | cons c m ih =>
    have := h c (by simp)
    rw [Memory.read_cons, if_neg (by omega), ih fun d hd => h d (by simp [hd])]

/-- A read after an insert gives the byte at the address and leaves every other address alone. -/
theorem Memory.read_insert {m : Memory} (hm : Memory.wf m) (a : Nat) (b : Byte) (a' : Nat) :
    Memory.read (Memory.insert a b m) a' = if a' = a then b else Memory.read m a' := by
  induction m with
  | nil =>
    simp only [Memory.insert]
    split <;> (simp only [Memory.read_cons, Memory.read_nil]; split <;> simp_all)
    · intro h; exact absurd h.symm ‹_›
  | cons c m ih =>
    obtain ⟨k, v⟩ := c
    obtain ⟨hp, hc⟩ := hm
    rw [List.pairwise_cons] at hp
    have ih := ih ⟨hp.2, fun d hd => hc d (by simp [hd])⟩
    have low : ∀ d ∈ (k, v) :: m, k ≤ d.1 := by
      intro d hd
      rcases List.mem_cons.1 hd with rfl | hd
      · exact le_refl _
      · exact le_of_lt (hp.1 d hd)
    simp only [Memory.insert]
    split
    · rename_i hak
      have hun : Memory.read ((k, v) :: m) a = Memory.unlisted a :=
        Memory.read_of_lt fun d hd => lt_of_lt_of_le hak (low d hd)
      split
      · split <;> simp_all
      · rw [Memory.read_cons]; simp only [eq_comm]
    · split
      · rename_i hak; subst hak
        have hun : Memory.read m a = Memory.unlisted a := Memory.read_of_lt hp.1
        by_cases h : a' = a
        · subst h; split <;> simp_all [Memory.read_cons]
        · have h' : ¬ a = a' := fun e => h e.symm
          split <;> simp [Memory.read_cons, h']
      · rename_i h1 h2
        rw [Memory.read_cons, Memory.read_cons, ih]
        by_cases h : a' = a
        · subst h
          have h' : ¬ k = a' := fun e => h2 e.symm
          simp [h']
        · simp [h]

theorem Memory.mem_insert {m : Memory} {a : Nat} {b : Byte} {c : Host.Cell} (h : c ∈ Memory.insert a b m) :
    (c = (a, b) ∧ b ≠ Memory.unlisted a) ∨ c ∈ m := by
  induction m with
  | nil =>
    simp only [Memory.insert] at h
    split at h <;> simp_all
  | cons d m ih =>
    obtain ⟨k, v⟩ := d
    simp only [Memory.insert] at h
    split at h
    · split at h <;> simp_all
    · split at h
      · split at h <;> simp_all
        tauto
      · rcases List.mem_cons.1 h with rfl | h
        · simp
        · rcases ih h with h | h <;> simp [h]

/-- An insert inside the address space keeps the canonical form. -/
theorem Memory.insert_wf {m : Memory} (hm : Memory.wf m) {a : Nat} (ha : a < Config.memSize) (b : Byte) :
    Memory.wf (Memory.insert a b m) := by
  refine ⟨?_, ?_⟩
  · induction m with
    | nil => simp only [Memory.insert]; split <;> simp
    | cons c m ih =>
      obtain ⟨k, v⟩ := c
      obtain ⟨hp, hc⟩ := hm
      have hp' := hp
      rw [List.pairwise_cons] at hp
      have ih := ih ⟨hp.2, fun d hd => hc d (by simp [hd])⟩
      simp only [Memory.insert]
      split
      · split
        · exact hp'
        · refine List.pairwise_cons.2 ⟨fun d hd => ?_, hp'⟩
          rcases List.mem_cons.1 hd with rfl | hd
          · assumption
          · exact lt_trans ‹a < k› (hp.1 d hd)
      · split
        · rename_i hak; subst hak
          split
          · exact hp.2
          · exact List.pairwise_cons.2 ⟨hp.1, hp.2⟩
        · refine List.pairwise_cons.2 ⟨fun d hd => ?_, ih⟩
          rcases Memory.mem_insert hd with ⟨rfl, -⟩ | hd
          · simp only; omega
          · exact hp.1 d hd
  · intro c hc
    rcases Memory.mem_insert hc with ⟨rfl, h⟩ | h
    · exact ⟨ha, h⟩
    · exact hm.2 c h

theorem Memory.write_wf {m : Memory} (hm : Memory.wf m) (a : Nat) (b : Byte) : Memory.wf (Memory.write m a b) := by
  unfold Memory.write
  split
  · exact Memory.insert_wf hm ‹_› b
  · exact hm

theorem Memory.read_write {m : Memory} (hm : Memory.wf m) {a : Nat} (ha : a < Config.memSize) (b : Byte) (a' : Nat) :
    Memory.read (Memory.write m a b) a' = if a' = a then b else Memory.read m a' := by
  rw [Memory.write, if_pos ha, Memory.read_insert hm]

theorem Memory.writeBytes_wf {m : Memory} (hm : Memory.wf m) (a : Nat) (bytes : List Byte) :
    Memory.wf (Memory.writeBytes m a bytes) := by
  induction bytes generalizing m a with
  | nil => exact hm
  | cons b rest ih => exact ih (Memory.write_wf hm a b) (a + 1)

/-- What a write of consecutive bytes inside the address space does to every read. -/
theorem Memory.read_writeBytes {m : Memory} (hm : Memory.wf m) {a : Nat} {bytes : List Byte}
    (ha : a + bytes.length ≤ Config.memSize) (a' : Nat) :
    Memory.read (Memory.writeBytes m a bytes) a' =
      if a ≤ a' then bytes.getD (a' - a) (Memory.read m a') else Memory.read m a' := by
  induction bytes generalizing m a with
  | nil => simp [Memory.writeBytes]
  | cons b rest ih =>
    simp only [List.length_cons] at ha
    rw [Memory.writeBytes, ih (Memory.write_wf hm a b) (by omega), Memory.read_write hm (by omega)]
    by_cases h1 : a' = a
    · subst h1; simp
    · by_cases h2 : a + 1 ≤ a'
      · obtain ⟨d, rfl⟩ := Nat.exists_eq_add_of_le h2
        have e1 : a + 1 + d - a = d + 1 := by omega
        have e2 : a + 1 + d - (a + 1) = d := by omega
        rw [if_pos h2, if_neg h1, if_pos (by omega), e1, e2, List.getD_cons_succ]
      · rw [if_neg h2, if_neg h1, if_neg (by omega)]

/-- The address decoder in arithmetic (R68). -/
theorem inMemory_iff (a n : Nat) : inMemory a n = true ↔ n = 0 ∨ a + n ≤ 0x1000 := by
  simp only [inMemory, Bool.or_eq_true, decide_eq_true_eq]; omega

/-- All that a checked read can answer. -/
theorem memRead_eq (m : Memory) (a n : Nat) :
    memRead m a n =
      if n = 0 ∨ a + n ≤ 0x1000 then some ((List.range n).map fun k => Memory.read m (a + k)) else none := by
  simp only [memRead, inMemory_iff]

/-- All that a checked write can answer. -/
theorem memWrite_eq (m : Memory) (a : Nat) (bytes : List Byte) :
    memWrite m a bytes =
      if bytes.length = 0 ∨ a + bytes.length ≤ 0x1000 then some (Memory.writeBytes m a bytes) else none := by
  simp only [memWrite, inMemory_iff]

/-- A checked write keeps the canonical form. -/
theorem memWrite_wf {m m' : Memory} (hm : Memory.wf m) {a : Nat} {bytes : List Byte}
    (h : memWrite m a bytes = some m') : Memory.wf m' := by
  rw [memWrite_eq] at h
  split at h
  · cases h; exact Memory.writeBytes_wf hm a bytes
  · cases h

theorem reset_mem_wf : Memory.wf State.reset.mem := by decide

end Sys2Proof.Machine
end

