-- ==== Sys2Proof/Laws/State.lean ====
section
/-! SUPPORT. What each named update does to each field of the state: one lemma per field per update. -/

namespace Sys2Proof.Machine

/-! ### setPc -/

@[simp] theorem State.mem_setPc (s : State) (t : Word) : (s.setPc t).mem = s.mem := rfl
@[simp] theorem State.v_setPc (s : State) (t : Word) : (s.setPc t).v = s.v := rfl
@[simp] theorem State.i_setPc (s : State) (t : Word) : (s.setPc t).i = s.i := rfl
@[simp] theorem State.pc_setPc (s : State) (t : Word) : (s.setPc t).pc = t := rfl
@[simp] theorem State.stack_setPc (s : State) (t : Word) : (s.setPc t).stack = s.stack := rfl
@[simp] theorem State.dt_setPc (s : State) (t : Word) : (s.setPc t).dt = s.dt := rfl
@[simp] theorem State.st_setPc (s : State) (t : Word) : (s.setPc t).st = s.st := rfl
@[simp] theorem State.fb_setPc (s : State) (t : Word) : (s.setPc t).fb = s.fb := rfl
@[simp] theorem State.keys_setPc (s : State) (t : Word) : (s.setPc t).keys = s.keys := rfl
@[simp] theorem State.cfg_setPc (s : State) (t : Word) : (s.setPc t).cfg = s.cfg := rfl
@[simp] theorem State.faultRecord_setPc (s : State) (t : Word) : (s.setPc t).faultRecord = s.faultRecord := rfl
@[simp] theorem State.lastResult_setPc (s : State) (t : Word) : (s.setPc t).lastResult = s.lastResult := rfl
@[simp] theorem State.params_setPc (s : State) (t : Word) : (s.setPc t).params = s.params := rfl
@[simp] theorem State.draws_setPc (s : State) (t : Word) : (s.setPc t).draws = s.draws := rfl

/-! ### advancePc -/

@[simp] theorem State.mem_advancePc (s : State) : s.advancePc.mem = s.mem := rfl
@[simp] theorem State.v_advancePc (s : State) : s.advancePc.v = s.v := rfl
@[simp] theorem State.i_advancePc (s : State) : s.advancePc.i = s.i := rfl
@[simp] theorem State.pc_advancePc (s : State) : s.advancePc.pc = s.pc + 2 := rfl
@[simp] theorem State.stack_advancePc (s : State) : s.advancePc.stack = s.stack := rfl
@[simp] theorem State.dt_advancePc (s : State) : s.advancePc.dt = s.dt := rfl
@[simp] theorem State.st_advancePc (s : State) : s.advancePc.st = s.st := rfl
@[simp] theorem State.fb_advancePc (s : State) : s.advancePc.fb = s.fb := rfl
@[simp] theorem State.keys_advancePc (s : State) : s.advancePc.keys = s.keys := rfl
@[simp] theorem State.cfg_advancePc (s : State) : s.advancePc.cfg = s.cfg := rfl
@[simp] theorem State.faultRecord_advancePc (s : State) : s.advancePc.faultRecord = s.faultRecord := rfl
@[simp] theorem State.lastResult_advancePc (s : State) : s.advancePc.lastResult = s.lastResult := rfl
@[simp] theorem State.params_advancePc (s : State) : s.advancePc.params = s.params := rfl
@[simp] theorem State.draws_advancePc (s : State) : s.advancePc.draws = s.draws := rfl

/-! ### push -/

@[simp] theorem State.mem_push (s : State) (a : Word) : (s.push a).mem = s.mem := rfl
@[simp] theorem State.v_push (s : State) (a : Word) : (s.push a).v = s.v := rfl
@[simp] theorem State.i_push (s : State) (a : Word) : (s.push a).i = s.i := rfl
@[simp] theorem State.pc_push (s : State) (a : Word) : (s.push a).pc = s.pc := rfl
@[simp] theorem State.stack_push (s : State) (a : Word) : (s.push a).stack = s.stack ++ [a] := rfl
@[simp] theorem State.dt_push (s : State) (a : Word) : (s.push a).dt = s.dt := rfl
@[simp] theorem State.st_push (s : State) (a : Word) : (s.push a).st = s.st := rfl
@[simp] theorem State.fb_push (s : State) (a : Word) : (s.push a).fb = s.fb := rfl
@[simp] theorem State.keys_push (s : State) (a : Word) : (s.push a).keys = s.keys := rfl
@[simp] theorem State.cfg_push (s : State) (a : Word) : (s.push a).cfg = s.cfg := rfl
@[simp] theorem State.faultRecord_push (s : State) (a : Word) : (s.push a).faultRecord = s.faultRecord := rfl
@[simp] theorem State.lastResult_push (s : State) (a : Word) : (s.push a).lastResult = s.lastResult := rfl
@[simp] theorem State.params_push (s : State) (a : Word) : (s.push a).params = s.params := rfl
@[simp] theorem State.draws_push (s : State) (a : Word) : (s.push a).draws = s.draws := rfl

/-! ### setI -/

@[simp] theorem State.mem_setI (s : State) (a : Word) : (s.setI a).mem = s.mem := rfl
@[simp] theorem State.v_setI (s : State) (a : Word) : (s.setI a).v = s.v := rfl
@[simp] theorem State.i_setI (s : State) (a : Word) : (s.setI a).i = a := rfl
@[simp] theorem State.pc_setI (s : State) (a : Word) : (s.setI a).pc = s.pc := rfl
@[simp] theorem State.stack_setI (s : State) (a : Word) : (s.setI a).stack = s.stack := rfl
@[simp] theorem State.dt_setI (s : State) (a : Word) : (s.setI a).dt = s.dt := rfl
@[simp] theorem State.st_setI (s : State) (a : Word) : (s.setI a).st = s.st := rfl
@[simp] theorem State.fb_setI (s : State) (a : Word) : (s.setI a).fb = s.fb := rfl
@[simp] theorem State.keys_setI (s : State) (a : Word) : (s.setI a).keys = s.keys := rfl
@[simp] theorem State.cfg_setI (s : State) (a : Word) : (s.setI a).cfg = s.cfg := rfl
@[simp] theorem State.faultRecord_setI (s : State) (a : Word) : (s.setI a).faultRecord = s.faultRecord := rfl
@[simp] theorem State.lastResult_setI (s : State) (a : Word) : (s.setI a).lastResult = s.lastResult := rfl
@[simp] theorem State.params_setI (s : State) (a : Word) : (s.setI a).params = s.params := rfl
@[simp] theorem State.draws_setI (s : State) (a : Word) : (s.setI a).draws = s.draws := rfl

/-! ### writeV -/

@[simp] theorem State.mem_writeV (s : State) (x : RegIx) (b : Byte) : (s.writeV x b).mem = s.mem := rfl
@[simp] theorem State.v_writeV (s : State) (x : RegIx) (b : Byte) : (s.writeV x b).v = s.v.set x.toNat b x.isLt := rfl
@[simp] theorem State.i_writeV (s : State) (x : RegIx) (b : Byte) : (s.writeV x b).i = s.i := rfl
@[simp] theorem State.pc_writeV (s : State) (x : RegIx) (b : Byte) : (s.writeV x b).pc = s.pc := rfl
@[simp] theorem State.stack_writeV (s : State) (x : RegIx) (b : Byte) : (s.writeV x b).stack = s.stack := rfl
@[simp] theorem State.dt_writeV (s : State) (x : RegIx) (b : Byte) : (s.writeV x b).dt = s.dt := rfl
@[simp] theorem State.st_writeV (s : State) (x : RegIx) (b : Byte) : (s.writeV x b).st = s.st := rfl
@[simp] theorem State.fb_writeV (s : State) (x : RegIx) (b : Byte) : (s.writeV x b).fb = s.fb := rfl
@[simp] theorem State.keys_writeV (s : State) (x : RegIx) (b : Byte) : (s.writeV x b).keys = s.keys := rfl
@[simp] theorem State.cfg_writeV (s : State) (x : RegIx) (b : Byte) : (s.writeV x b).cfg = s.cfg := rfl
@[simp] theorem State.faultRecord_writeV (s : State) (x : RegIx) (b : Byte) : (s.writeV x b).faultRecord = s.faultRecord := rfl
@[simp] theorem State.lastResult_writeV (s : State) (x : RegIx) (b : Byte) : (s.writeV x b).lastResult = s.lastResult := rfl
@[simp] theorem State.params_writeV (s : State) (x : RegIx) (b : Byte) : (s.writeV x b).params = s.params := rfl
@[simp] theorem State.draws_writeV (s : State) (x : RegIx) (b : Byte) : (s.writeV x b).draws = s.draws := rfl

/-! ### writeRegs -/

@[simp] theorem State.mem_writeRegs (s : State) (bytes : List Byte) : (s.writeRegs bytes).mem = s.mem := rfl
@[simp] theorem State.v_writeRegs (s : State) (bytes : List Byte) : (s.writeRegs bytes).v = setRegsFrom s.v 0 bytes := rfl
@[simp] theorem State.i_writeRegs (s : State) (bytes : List Byte) : (s.writeRegs bytes).i = s.i := rfl
@[simp] theorem State.pc_writeRegs (s : State) (bytes : List Byte) : (s.writeRegs bytes).pc = s.pc := rfl
@[simp] theorem State.stack_writeRegs (s : State) (bytes : List Byte) : (s.writeRegs bytes).stack = s.stack := rfl
@[simp] theorem State.dt_writeRegs (s : State) (bytes : List Byte) : (s.writeRegs bytes).dt = s.dt := rfl
@[simp] theorem State.st_writeRegs (s : State) (bytes : List Byte) : (s.writeRegs bytes).st = s.st := rfl
@[simp] theorem State.fb_writeRegs (s : State) (bytes : List Byte) : (s.writeRegs bytes).fb = s.fb := rfl
@[simp] theorem State.keys_writeRegs (s : State) (bytes : List Byte) : (s.writeRegs bytes).keys = s.keys := rfl
@[simp] theorem State.cfg_writeRegs (s : State) (bytes : List Byte) : (s.writeRegs bytes).cfg = s.cfg := rfl
@[simp] theorem State.faultRecord_writeRegs (s : State) (bytes : List Byte) : (s.writeRegs bytes).faultRecord = s.faultRecord := rfl
@[simp] theorem State.lastResult_writeRegs (s : State) (bytes : List Byte) : (s.writeRegs bytes).lastResult = s.lastResult := rfl
@[simp] theorem State.params_writeRegs (s : State) (bytes : List Byte) : (s.writeRegs bytes).params = s.params := rfl
@[simp] theorem State.draws_writeRegs (s : State) (bytes : List Byte) : (s.writeRegs bytes).draws = s.draws := rfl

/-! ### writeWithFlag -/

@[simp] theorem State.mem_writeWithFlag (s : State) (x : RegIx) (r : Byte) (f : Bool) : (s.writeWithFlag x r f).mem = s.mem := rfl
@[simp] theorem State.i_writeWithFlag (s : State) (x : RegIx) (r : Byte) (f : Bool) : (s.writeWithFlag x r f).i = s.i := rfl
@[simp] theorem State.pc_writeWithFlag (s : State) (x : RegIx) (r : Byte) (f : Bool) : (s.writeWithFlag x r f).pc = s.pc := rfl
@[simp] theorem State.stack_writeWithFlag (s : State) (x : RegIx) (r : Byte) (f : Bool) : (s.writeWithFlag x r f).stack = s.stack := rfl
@[simp] theorem State.dt_writeWithFlag (s : State) (x : RegIx) (r : Byte) (f : Bool) : (s.writeWithFlag x r f).dt = s.dt := rfl
@[simp] theorem State.st_writeWithFlag (s : State) (x : RegIx) (r : Byte) (f : Bool) : (s.writeWithFlag x r f).st = s.st := rfl
@[simp] theorem State.fb_writeWithFlag (s : State) (x : RegIx) (r : Byte) (f : Bool) : (s.writeWithFlag x r f).fb = s.fb := rfl
@[simp] theorem State.keys_writeWithFlag (s : State) (x : RegIx) (r : Byte) (f : Bool) : (s.writeWithFlag x r f).keys = s.keys := rfl
@[simp] theorem State.cfg_writeWithFlag (s : State) (x : RegIx) (r : Byte) (f : Bool) : (s.writeWithFlag x r f).cfg = s.cfg := rfl
@[simp] theorem State.faultRecord_writeWithFlag (s : State) (x : RegIx) (r : Byte) (f : Bool) : (s.writeWithFlag x r f).faultRecord = s.faultRecord := rfl
@[simp] theorem State.lastResult_writeWithFlag (s : State) (x : RegIx) (r : Byte) (f : Bool) : (s.writeWithFlag x r f).lastResult = s.lastResult := rfl
@[simp] theorem State.params_writeWithFlag (s : State) (x : RegIx) (r : Byte) (f : Bool) : (s.writeWithFlag x r f).params = s.params := rfl
@[simp] theorem State.draws_writeWithFlag (s : State) (x : RegIx) (r : Byte) (f : Bool) : (s.writeWithFlag x r f).draws = s.draws := rfl

/-! ### finishDraw -/

@[simp] theorem State.mem_finishDraw (s : State) (d : DrawState) : (s.finishDraw d).mem = s.mem := rfl
@[simp] theorem State.i_finishDraw (s : State) (d : DrawState) : (s.finishDraw d).i = s.i := rfl
@[simp] theorem State.pc_finishDraw (s : State) (d : DrawState) : (s.finishDraw d).pc = s.pc := rfl
@[simp] theorem State.stack_finishDraw (s : State) (d : DrawState) : (s.finishDraw d).stack = s.stack := rfl
@[simp] theorem State.dt_finishDraw (s : State) (d : DrawState) : (s.finishDraw d).dt = s.dt := rfl
@[simp] theorem State.st_finishDraw (s : State) (d : DrawState) : (s.finishDraw d).st = s.st := rfl
@[simp] theorem State.fb_finishDraw (s : State) (d : DrawState) : (s.finishDraw d).fb = d.fb := rfl
@[simp] theorem State.keys_finishDraw (s : State) (d : DrawState) : (s.finishDraw d).keys = s.keys := rfl
@[simp] theorem State.cfg_finishDraw (s : State) (d : DrawState) : (s.finishDraw d).cfg = s.cfg := rfl
@[simp] theorem State.faultRecord_finishDraw (s : State) (d : DrawState) : (s.finishDraw d).faultRecord = s.faultRecord := rfl
@[simp] theorem State.lastResult_finishDraw (s : State) (d : DrawState) : (s.finishDraw d).lastResult = s.lastResult := rfl
@[simp] theorem State.params_finishDraw (s : State) (d : DrawState) : (s.finishDraw d).params = s.params := rfl
@[simp] theorem State.draws_finishDraw (s : State) (d : DrawState) : (s.finishDraw d).draws = s.draws := rfl

/-! ### tick -/

@[simp] theorem State.mem_tick (s : State) : s.tick.mem = s.mem := rfl
@[simp] theorem State.v_tick (s : State) : s.tick.v = s.v := rfl
@[simp] theorem State.i_tick (s : State) : s.tick.i = s.i := rfl
@[simp] theorem State.pc_tick (s : State) : s.tick.pc = s.pc := rfl
@[simp] theorem State.stack_tick (s : State) : s.tick.stack = s.stack := rfl
@[simp] theorem State.dt_tick (s : State) : s.tick.dt = tickTimer s.dt := rfl
@[simp] theorem State.st_tick (s : State) : s.tick.st = tickTimer s.st := rfl
@[simp] theorem State.fb_tick (s : State) : s.tick.fb = s.fb := rfl
@[simp] theorem State.keys_tick (s : State) : s.tick.keys = s.keys := rfl
@[simp] theorem State.cfg_tick (s : State) : s.tick.cfg = s.cfg := rfl
@[simp] theorem State.faultRecord_tick (s : State) : s.tick.faultRecord = s.faultRecord := rfl
@[simp] theorem State.lastResult_tick (s : State) : s.tick.lastResult = s.lastResult := rfl
@[simp] theorem State.params_tick (s : State) : s.tick.params = s.params := rfl
@[simp] theorem State.draws_tick (s : State) : s.tick.draws = s.draws := rfl

/-! ### skipIf -/

@[simp] theorem State.mem_skipIf (s : State) (c : Bool) : (s.skipIf c).mem = s.mem := by
  unfold State.skipIf; split <;> rfl
@[simp] theorem State.v_skipIf (s : State) (c : Bool) : (s.skipIf c).v = s.v := by
  unfold State.skipIf; split <;> rfl
@[simp] theorem State.i_skipIf (s : State) (c : Bool) : (s.skipIf c).i = s.i := by
  unfold State.skipIf; split <;> rfl
@[simp] theorem State.pc_skipIf (s : State) (c : Bool) : (s.skipIf c).pc = (if c then s.pc + 2 else s.pc) := by
  unfold State.skipIf; split <;> rfl
@[simp] theorem State.stack_skipIf (s : State) (c : Bool) : (s.skipIf c).stack = s.stack := by
  unfold State.skipIf; split <;> rfl
@[simp] theorem State.dt_skipIf (s : State) (c : Bool) : (s.skipIf c).dt = s.dt := by
  unfold State.skipIf; split <;> rfl
@[simp] theorem State.st_skipIf (s : State) (c : Bool) : (s.skipIf c).st = s.st := by
  unfold State.skipIf; split <;> rfl
@[simp] theorem State.fb_skipIf (s : State) (c : Bool) : (s.skipIf c).fb = s.fb := by
  unfold State.skipIf; split <;> rfl
@[simp] theorem State.keys_skipIf (s : State) (c : Bool) : (s.skipIf c).keys = s.keys := by
  unfold State.skipIf; split <;> rfl
@[simp] theorem State.cfg_skipIf (s : State) (c : Bool) : (s.skipIf c).cfg = s.cfg := by
  unfold State.skipIf; split <;> rfl
@[simp] theorem State.faultRecord_skipIf (s : State) (c : Bool) : (s.skipIf c).faultRecord = s.faultRecord := by
  unfold State.skipIf; split <;> rfl
@[simp] theorem State.lastResult_skipIf (s : State) (c : Bool) : (s.skipIf c).lastResult = s.lastResult := by
  unfold State.skipIf; split <;> rfl
@[simp] theorem State.params_skipIf (s : State) (c : Bool) : (s.skipIf c).params = s.params := by
  unfold State.skipIf; split <;> rfl
@[simp] theorem State.draws_skipIf (s : State) (c : Bool) : (s.skipIf c).draws = s.draws := by
  unfold State.skipIf; split <;> rfl

/-! ### advanceIndex -/

@[simp] theorem State.mem_advanceIndex (s : State) (x : RegIx) : (s.advanceIndex x).mem = s.mem := by
  unfold State.advanceIndex; split <;> rfl
@[simp] theorem State.v_advanceIndex (s : State) (x : RegIx) : (s.advanceIndex x).v = s.v := by
  unfold State.advanceIndex; split <;> rfl
@[simp] theorem State.i_advanceIndex (s : State) (x : RegIx) : (s.advanceIndex x).i = (bif s.cfg.loadStoreQuirk then s.i else s.i + BitVec.ofNat 16 (x.toNat + 1)) := by
  unfold State.advanceIndex; split <;> simp_all
@[simp] theorem State.pc_advanceIndex (s : State) (x : RegIx) : (s.advanceIndex x).pc = s.pc := by
  unfold State.advanceIndex; split <;> rfl
@[simp] theorem State.stack_advanceIndex (s : State) (x : RegIx) : (s.advanceIndex x).stack = s.stack := by
  unfold State.advanceIndex; split <;> rfl
@[simp] theorem State.dt_advanceIndex (s : State) (x : RegIx) : (s.advanceIndex x).dt = s.dt := by
  unfold State.advanceIndex; split <;> rfl
@[simp] theorem State.st_advanceIndex (s : State) (x : RegIx) : (s.advanceIndex x).st = s.st := by
  unfold State.advanceIndex; split <;> rfl
@[simp] theorem State.fb_advanceIndex (s : State) (x : RegIx) : (s.advanceIndex x).fb = s.fb := by
  unfold State.advanceIndex; split <;> rfl
@[simp] theorem State.keys_advanceIndex (s : State) (x : RegIx) : (s.advanceIndex x).keys = s.keys := by
  unfold State.advanceIndex; split <;> rfl
@[simp] theorem State.cfg_advanceIndex (s : State) (x : RegIx) : (s.advanceIndex x).cfg = s.cfg := by
  unfold State.advanceIndex; split <;> rfl
@[simp] theorem State.faultRecord_advanceIndex (s : State) (x : RegIx) : (s.advanceIndex x).faultRecord = s.faultRecord := by
  unfold State.advanceIndex; split <;> rfl
@[simp] theorem State.lastResult_advanceIndex (s : State) (x : RegIx) : (s.advanceIndex x).lastResult = s.lastResult := by
  unfold State.advanceIndex; split <;> rfl
@[simp] theorem State.params_advanceIndex (s : State) (x : RegIx) : (s.advanceIndex x).params = s.params := by
  unfold State.advanceIndex; split <;> rfl
@[simp] theorem State.draws_advanceIndex (s : State) (x : RegIx) : (s.advanceIndex x).draws = s.draws := by
  unfold State.advanceIndex; split <;> rfl

/-! ### setResult -/

@[simp] theorem State.mem_setResult (s : State) (r : StepResult) : (s.setResult r).mem = s.mem := rfl
@[simp] theorem State.v_setResult (s : State) (r : StepResult) : (s.setResult r).v = s.v := rfl
@[simp] theorem State.i_setResult (s : State) (r : StepResult) : (s.setResult r).i = s.i := rfl
@[simp] theorem State.pc_setResult (s : State) (r : StepResult) : (s.setResult r).pc = s.pc := rfl
@[simp] theorem State.stack_setResult (s : State) (r : StepResult) : (s.setResult r).stack = s.stack := rfl
@[simp] theorem State.dt_setResult (s : State) (r : StepResult) : (s.setResult r).dt = s.dt := rfl
@[simp] theorem State.st_setResult (s : State) (r : StepResult) : (s.setResult r).st = s.st := rfl
@[simp] theorem State.fb_setResult (s : State) (r : StepResult) : (s.setResult r).fb = s.fb := rfl
@[simp] theorem State.keys_setResult (s : State) (r : StepResult) : (s.setResult r).keys = s.keys := rfl
@[simp] theorem State.cfg_setResult (s : State) (r : StepResult) : (s.setResult r).cfg = s.cfg := rfl
@[simp] theorem State.faultRecord_setResult (s : State) (r : StepResult) : (s.setResult r).faultRecord = s.faultRecord := rfl
@[simp] theorem State.lastResult_setResult (s : State) (r : StepResult) : (s.setResult r).lastResult = some r := rfl
@[simp] theorem State.params_setResult (s : State) (r : StepResult) : (s.setResult r).params = s.params := rfl
@[simp] theorem State.draws_setResult (s : State) (r : StepResult) : (s.setResult r).draws = s.draws := rfl

/-! ### recordFault -/

@[simp] theorem State.mem_recordFault (s : State) (e : StepError) : (s.recordFault e).mem = s.mem := rfl
@[simp] theorem State.v_recordFault (s : State) (e : StepError) : (s.recordFault e).v = s.v := rfl
@[simp] theorem State.i_recordFault (s : State) (e : StepError) : (s.recordFault e).i = s.i := rfl
@[simp] theorem State.pc_recordFault (s : State) (e : StepError) : (s.recordFault e).pc = s.pc := rfl
@[simp] theorem State.stack_recordFault (s : State) (e : StepError) : (s.recordFault e).stack = s.stack := rfl
@[simp] theorem State.dt_recordFault (s : State) (e : StepError) : (s.recordFault e).dt = s.dt := rfl
@[simp] theorem State.st_recordFault (s : State) (e : StepError) : (s.recordFault e).st = s.st := rfl
@[simp] theorem State.fb_recordFault (s : State) (e : StepError) : (s.recordFault e).fb = s.fb := rfl
@[simp] theorem State.keys_recordFault (s : State) (e : StepError) : (s.recordFault e).keys = s.keys := rfl
@[simp] theorem State.cfg_recordFault (s : State) (e : StepError) : (s.recordFault e).cfg = s.cfg := rfl
@[simp] theorem State.faultRecord_recordFault (s : State) (e : StepError) : (s.recordFault e).faultRecord = s.faultRecord.or (some e) := rfl
@[simp] theorem State.lastResult_recordFault (s : State) (e : StepError) : (s.recordFault e).lastResult = s.lastResult := rfl
@[simp] theorem State.params_recordFault (s : State) (e : StepError) : (s.recordFault e).params = s.params := rfl
@[simp] theorem State.draws_recordFault (s : State) (e : StepError) : (s.recordFault e).draws = s.draws := rfl

end Sys2Proof.Machine
end

