-- ==== Sys2Proof/Laws/Registers.lean ====
section
/-! SUPPORT. Registers, the call stack, PC and pixels: what each named operation on them answers. -/

namespace Sys2Proof.Machine

/-- A register read depends on the register file alone. -/
theorem State.readV_congr {s t : State} (h : t.v = s.v) (r : RegIx) : t.readV r = s.readV r := by
  unfold State.readV; simp only [h]

@[simp] theorem State.readV_writeV (s : State) (x : RegIx) (b : Byte) (r : RegIx) :
    (s.writeV x b).readV r = if r = x then b else s.readV r := by
  unfold State.readV State.writeV
  simp only [Vector.getElem_set, ← BitVec.toNat_inj]
  by_cases h : r.toNat = x.toNat
  · simp [h]
  · have h' : ¬ x.toNat = r.toNat := fun e => h e.symm
    simp [h, h']

/-- The flag is written last, so it is what VF holds (R140). -/
@[simp] theorem State.readV_writeWithFlag (s : State) (x : RegIx) (b : Byte) (f : Bool) (r : RegIx) :
    (s.writeWithFlag x b f).readV r = if r = flagReg then flagByte f else if r = x then b else s.readV r := by
  simp [State.writeWithFlag]

@[simp] theorem State.readV_setResult (s : State) (a : StepResult) (r : RegIx) :
    (s.setResult a).readV r = s.readV r := rfl
@[simp] theorem State.readV_recordFault (s : State) (e : StepError) (r : RegIx) :
    (s.recordFault e).readV r = s.readV r := rfl
@[simp] theorem State.readV_setPc (s : State) (a : Word) (r : RegIx) : (s.setPc a).readV r = s.readV r := rfl
@[simp] theorem State.readV_advancePc (s : State) (r : RegIx) : s.advancePc.readV r = s.readV r := rfl
@[simp] theorem State.readV_push (s : State) (a : Word) (r : RegIx) : (s.push a).readV r = s.readV r := rfl
@[simp] theorem State.readV_setI (s : State) (a : Word) (r : RegIx) : (s.setI a).readV r = s.readV r := rfl
@[simp] theorem State.readV_skipIf (s : State) (c : Bool) (r : RegIx) : (s.skipIf c).readV r = s.readV r :=
  State.readV_congr (by simp) r
@[simp] theorem State.readV_advanceIndex (s : State) (x r : RegIx) : (s.advanceIndex x).readV r = s.readV r :=
  State.readV_congr (by simp) r
@[simp] theorem State.readV_finishDraw (s : State) (d : DrawState) (r : RegIx) :
    (s.finishDraw d).readV r = if r = flagReg then flagByte d.collision else s.readV r := by
  unfold State.finishDraw
  rw [State.readV_writeV]
  rfl

theorem getElem?_setRegsFrom (v : Vector Byte 16) (k : Nat) (bytes : List Byte) (j : Nat) :
    (setRegsFrom v k bytes)[j]? = if k ≤ j ∧ j < 16 then some (bytes.getD (j - k) (v[j]?.getD 0)) else v[j]? := by
  induction bytes generalizing v k with
  | nil =>
    simp only [setRegsFrom, List.getD_nil]
    split
    · rw [Vector.getElem?_eq_getElem (by omega)]; rfl
    · rfl
  | cons b rest ih =>
    rw [setRegsFrom, ih, Vector.getElem?_setIfInBounds]
    by_cases h1 : k = j
    · subst h1
      by_cases h2 : k < 16 <;> simp [h2]
    · by_cases h2 : k ≤ j ∧ j < 16
      · have h3 : k + 1 ≤ j ∧ j < 16 := ⟨by omega, h2.2⟩
        obtain ⟨d, rfl⟩ := Nat.exists_eq_add_of_le h3.1
        have e1 : k + 1 + d - (k + 1) = d := by omega
        have e2 : k + 1 + d - k = d + 1 := by omega
        rw [if_pos h3, if_pos h2, if_neg h1, e1, e2, List.getD_cons_succ]
      · rw [if_neg (by omega), if_neg h2, if_neg h1]

/-- Register r receives the r-th byte where there is one (R197). -/
@[simp] theorem State.readV_writeRegs (s : State) (bytes : List Byte) (r : RegIx) :
    (s.writeRegs bytes).readV r = bytes.getD r.toNat (s.readV r) := by
  have h := getElem?_setRegsFrom s.v 0 bytes r.toNat
  have hr : r.toNat < 16 := r.isLt
  rw [if_pos ⟨Nat.zero_le _, hr⟩, Vector.getElem?_eq_getElem hr, Vector.getElem?_eq_getElem hr] at h
  simpa [State.readV, State.writeRegs] using h

@[simp] theorem State.length_regsUpTo (s : State) (x : RegIx) : (s.regsUpTo x).length = x.toNat + 1 := by
  have := x.isLt
  simp [State.regsUpTo]
  omega

/-- The k-th stored byte is V[k] (R196). -/
theorem State.getElem_regsUpTo (s : State) (x : RegIx) (k : Nat) (h : k < (s.regsUpTo x).length) :
    (s.regsUpTo x)[k] = s.readV (BitVec.ofNat 4 k) := by
  have hx := x.isLt
  have hk : k < 16 := by simp at h; omega
  simp [State.regsUpTo, State.readV, Nat.mod_eq_of_lt hk]

/-! ### Call stack -/

/-- All that a pop can answer: the last entry (R29). -/
theorem State.pop_eq_some {s t : State} {a : Word} (h : s.pop = some (a, t)) :
    s.stack = t.stack ++ [a] ∧ t = { s with stack := s.stack.dropLast } := by
  unfold State.pop at h
  split at h
  · rename_i b hb
    cases h
    obtain ⟨l, hl⟩ := List.getLast?_eq_some_iff.1 hb
    simp [hl]
  · cases h

theorem State.pop_eq_none {s : State} : s.pop = none ↔ s.stack = [] := by
  unfold State.pop
  split <;> simp_all
  intro h; simp_all

theorem State.pop_of_append {s : State} {l : List Word} {a : Word} (h : s.stack = l ++ [a]) :
    s.pop = some (a, { s with stack := l }) := by
  simp [State.pop, h]

/-! ### Pixels -/

/-- A pixel after a pixel write. -/
theorem Framebuffer.pixel_setPixel (fb : Framebuffer) {y x : Nat} (h : y < 32 ∧ x < 64) (b : Bool) (y' x' : Nat) :
    Framebuffer.pixel (Framebuffer.setPixel fb y x b) y' x' =
      if y' = y ∧ x' = x then b else Framebuffer.pixel fb y' x' := by
  unfold Framebuffer.setPixel Framebuffer.pixel
  rw [dif_pos h]
  by_cases h' : y' < 32 ∧ x' < 64
  · rw [dif_pos h', dif_pos h']
    simp only [Vector.getElem_set]
    by_cases hy : y = y'
    · subst hy
      by_cases hx : x = x'
      · subst hx; simp
      · have hx' : ¬ x' = x := fun e => hx e.symm
        simp [hx, hx']
    · have hy' : ¬ y' = y := fun e => hy e.symm
      simp [hy, hy']
  · rw [dif_neg h', dif_neg h']
    split
    · omega
    · rfl

@[simp] theorem Framebuffer.pixel_clear (y x : Nat) : Framebuffer.pixel Framebuffer.clear y x = false := by
  unfold Framebuffer.pixel Framebuffer.clear
  split <;> simp

/-- Two framebuffers with the same pixels are the same. -/
theorem Framebuffer.ext_pixel {f g : Framebuffer}
    (h : ∀ y x, y < 32 → x < 64 → Framebuffer.pixel f y x = Framebuffer.pixel g y x) : f = g := by
  apply Vector.ext
  intro y hy
  apply Vector.ext
  intro x hx
  simpa [Framebuffer.pixel, hy, hx] using h y x hy hx

end Sys2Proof.Machine
end

