-- ==== Sys2Proof/Laws/Draw.lean ====
section
/-! SUPPORT. The draw loops as one toggle per covered pixel (44_draw.md R167, R169, R172): what drawBit, drawRow and
drawRows do to every pixel and to the collision flag. -/

namespace Sys2Proof.Machine

/-- The row byte has a set bit at screen column px: bit 7 - (px - x0), within the eight columns (R165). -/
def rowCovers (x0 : Nat) (row : Byte) (px : Nat) : Bool :=
  decide (x0 ≤ px) && decide (px < x0 + 8) && row.getLsbD (7 - (px - x0))

/-- The rows from screen row py have a set bit at (px', py') on the screen (R167). -/
def rowsCover (py x0 : Nat) (rows : List Byte) (py' px : Nat) : Bool :=
  decide (py' < 32) && decide (px < 64) && decide (py ≤ py') &&
    (rows[py' - py]?.elim false fun row => rowCovers x0 row px)

theorem Framebuffer.pixel_outside (fb : Framebuffer) {y x : Nat} (h : ¬ (y < 32 ∧ x < 64)) :
    Framebuffer.pixel fb y x = false := dif_neg h

/-- One bit: it toggles its own pixel when set and on the screen, and no other. -/
theorem pixel_drawBit (py px : Nat) (bit : Bool) (d : DrawState) (y x : Nat) :
    Framebuffer.pixel (drawBit py px bit d).fb y x =
      (Framebuffer.pixel d.fb y x ^^ (bit && decide (y = py) && decide (x = px) && decide (y < 32) && decide (x < 64))) := by
  unfold drawBit
  simp only [Config.height, Config.width]
  by_cases h : py < 32 ∧ px < 64
  · rw [if_neg (by omega), if_neg (by omega)]
    cases bit
    · simp
    · simp only [if_true]
      rw [Framebuffer.pixel_setPixel d.fb h]
      by_cases e : y = py ∧ x = px
      · obtain ⟨rfl, rfl⟩ := e; simp [h]
      · rw [if_neg e]
        rcases Classical.not_and_iff_not_or_not.1 e with e | e <;> simp [e]
  · have hb : (bit && decide (y = py) && decide (x = px) && decide (y < 32) && decide (x < 64)) = false := by
      by_cases hy : y = py <;> by_cases hx : x = px <;> simp [hy, hx]
      subst hy hx; intro _ h1; omega
    rw [hb]
    split
    · simp
    · rw [if_pos (by omega)]; simp

/-- One bit collides when it is set and its pixel was on before (R169). -/
theorem collision_drawBit (py px : Nat) (bit : Bool) (d : DrawState) :
    (drawBit py px bit d).collision = (d.collision || (bit && Framebuffer.pixel d.fb py px)) := by
  unfold drawBit
  simp only [Config.height, Config.width]
  by_cases h : py < 32 ∧ px < 64
  · rw [if_neg (by omega), if_neg (by omega)]
    cases bit <;> simp
  · rw [Framebuffer.pixel_outside d.fb h]
    split
    · simp
    · rw [if_pos (by omega)]; simp

/-- The first k bits of a row. -/
def drawBits (py x0 : Nat) (row : Byte) (k : Nat) (d : DrawState) : DrawState :=
  (List.range k).foldl (fun d b => drawBit py (x0 + b) (row.getLsbD (7 - b)) d) d

theorem drawBits_succ (py x0 : Nat) (row : Byte) (k : Nat) (d : DrawState) :
    drawBits py x0 row (k + 1) d = drawBit py (x0 + k) (row.getLsbD (7 - k)) (drawBits py x0 row k d) := by
  simp [drawBits, List.range_succ]

theorem pixel_drawBits (py x0 : Nat) (row : Byte) (k : Nat) (d : DrawState) (y x : Nat) :
    Framebuffer.pixel (drawBits py x0 row k d).fb y x =
      (Framebuffer.pixel d.fb y x ^^ (decide (y = py) && decide (y < 32) && decide (x < 64) &&
        (decide (x0 ≤ x) && decide (x < x0 + k) && row.getLsbD (7 - (x - x0))))) := by
  induction k with
  | zero =>
    have : (decide (x0 ≤ x) && decide (x < x0 + 0)) = false := by simp
    rw [this]; simp [drawBits]
  | succ k ih =>
    rw [drawBits_succ, pixel_drawBit, ih]
    by_cases hx : x = x0 + k
    · subst hx; simp
      cases row.getLsbD (7 - k) <;> simp
    · have e : decide (x < x0 + (k + 1)) = decide (x < x0 + k) := by rw [decide_eq_decide]; omega
      rw [e]; simp [hx]

/-- All that one row does to a pixel. -/
theorem pixel_drawRow (py x0 : Nat) (row : Byte) (d : DrawState) (y x : Nat) :
    Framebuffer.pixel (drawRow py x0 row d).fb y x =
      (Framebuffer.pixel d.fb y x ^^
        (decide (y = py) && decide (y < 32) && decide (x < 64) && rowCovers x0 row x)) :=
  pixel_drawBits py x0 row 8 d y x

theorem collision_drawBits (py x0 : Nat) (row : Byte) (k : Nat) (d : DrawState) :
    (drawBits py x0 row k d).collision = true ↔
      d.collision = true ∨ ∃ b, b < k ∧ row.getLsbD (7 - b) = true ∧ Framebuffer.pixel d.fb py (x0 + b) = true := by
  induction k with
  | zero => simp [drawBits]
  | succ k ih =>
    rw [drawBits_succ, collision_drawBit, Bool.or_eq_true, ih, Bool.and_eq_true, pixel_drawBits]
    have e : decide (x0 + k < x0 + k) = false := by simp
    simp only [e, Bool.and_false, Bool.false_and, Bool.xor_false]
    constructor
    · rintro ((h | ⟨b, hb, h⟩) | h)
      · exact .inl h
      · exact .inr ⟨b, by omega, h⟩
      · exact .inr ⟨k, by omega, h⟩
    · rintro (h | ⟨b, hb, h⟩)
      · exact .inl (.inl h)
      · by_cases hbk : b = k
        · subst hbk; exact .inr h
        · exact .inl (.inr ⟨b, by omega, h⟩)

/-- A row collides exactly when one of its set bits meets an on pixel. -/
theorem collision_drawRow (py x0 : Nat) (row : Byte) (d : DrawState) :
    (drawRow py x0 row d).collision = true ↔
      d.collision = true ∨ ∃ x, rowCovers x0 row x = true ∧ Framebuffer.pixel d.fb py x = true := by
  refine (collision_drawBits py x0 row 8 d).trans (or_congr_right ?_)
  constructor
  · rintro ⟨b, hb, h1, h2⟩
    exact ⟨x0 + b, by simp [rowCovers, hb, h1], h2⟩
  · rintro ⟨x, h1, h2⟩
    simp only [rowCovers, Bool.and_eq_true, decide_eq_true_eq] at h1
    refine ⟨x - x0, by omega, h1.2, ?_⟩
    rwa [show x0 + (x - x0) = x by omega]

/-- All that the rows do to a pixel: one toggle where they cover it. -/
theorem pixel_drawRows (py x0 : Nat) (rows : List Byte) (d : DrawState) (y x : Nat) :
    Framebuffer.pixel (drawRows py x0 rows d).fb y x = (Framebuffer.pixel d.fb y x ^^ rowsCover py x0 rows y x) := by
  induction rows generalizing py d with
  | nil => simp [drawRows, rowsCover]
  | cons row rest ih =>
    rw [drawRows, ih, pixel_drawRow]
    unfold rowsCover
    by_cases h : y = py
    · subst h
      simp
    · by_cases h' : py + 1 ≤ y
      · obtain ⟨k, rfl⟩ := Nat.exists_eq_add_of_le h'
        have e1 : py + 1 + k - py = k + 1 := by omega
        have e2 : py + 1 + k - (py + 1) = k := by omega
        rw [e1, e2, List.getElem?_cons_succ]
        have e3 : decide (py ≤ py + 1 + k) = true := by simp; omega
        simp [h, e3]
      · have e1 : ¬ py < y := by omega
        have e2 : ¬ py ≤ y := by omega
        simp [h, e1, e2]

/-- The rows collide exactly when they cover a pixel that was on (R169). -/
theorem collision_drawRows (py x0 : Nat) (rows : List Byte) (d : DrawState) :
    (drawRows py x0 rows d).collision = true ↔
      d.collision = true ∨ ∃ y x, rowsCover py x0 rows y x = true ∧ Framebuffer.pixel d.fb y x = true := by
  induction rows generalizing py d with
  | nil => simp [drawRows, rowsCover]
  | cons row rest ih =>
    rw [drawRows, ih, collision_drawRow, or_assoc]
    refine or_congr_right ?_
    constructor
    · rintro (⟨x, h1, h2⟩ | ⟨y, x, h1, h2⟩)
      · have hs : py < 32 ∧ x < 64 := by
          by_contra h
          rw [Framebuffer.pixel_outside d.fb h] at h2
          cases h2
        exact ⟨py, x, by simp [rowsCover, h1, hs], h2⟩
      · have hy : py + 1 ≤ y := by
          simp only [rowsCover, Bool.and_eq_true, decide_eq_true_eq] at h1; exact h1.1.2
        rw [pixel_drawRow, show decide (y = py) = false by simp; omega] at h2
        obtain ⟨k, rfl⟩ := Nat.exists_eq_add_of_le hy
        refine ⟨py + 1 + k, x, ?_, by simpa using h2⟩
        unfold rowsCover at h1 ⊢
        rw [show py + 1 + k - py = k + 1 by omega, List.getElem?_cons_succ]
        rw [show py + 1 + k - (py + 1) = k by omega] at h1
        simp only [Bool.and_eq_true, decide_eq_true_eq] at h1 ⊢
        exact ⟨⟨h1.1.1, by omega⟩, h1.2⟩
    · rintro ⟨y, x, h1, h2⟩
      unfold rowsCover at h1
      simp only [Bool.and_eq_true, decide_eq_true_eq] at h1
      by_cases hy : y = py
      · subst hy
        exact .inl ⟨x, by simpa using h1.2, h2⟩
      · obtain ⟨k, rfl⟩ := Nat.exists_eq_add_of_le (show py + 1 ≤ y by omega)
        rw [show py + 1 + k - py = k + 1 by omega, List.getElem?_cons_succ] at h1
        refine .inr ⟨py + 1 + k, x, ?_, ?_⟩
        · unfold rowsCover
          rw [show py + 1 + k - (py + 1) = k by omega]
          simp only [Bool.and_eq_true, decide_eq_true_eq]
          exact ⟨⟨h1.1.1, le_add_right (le_refl _)⟩, h1.2⟩
        · rw [pixel_drawRow, show decide (py + 1 + k = py) = false by simp; omega]
          simpa using h2

end Sys2Proof.Machine
end

