-- ==== Sys2Proof/Laws/Frames.lean ====
section
/-! SUPPORT. Frames and endings: how a meaning that completes or raises gives a frame, and what a step can be. -/

namespace Sys2Proof.Machine

/-- Nothing changed keeps everything. -/
theorem Keeps.refl (τ : Touch) (s : State) : Keeps τ s s := by
  constructor <;> intros <;> rfl

/-- The recorded answer and the fault record are in no frame. -/
theorem Keeps.result {τ : Touch} {s u : State} (h : Keeps τ s u) (r : Option StepResult) (f : Option StepError) :
    Keeps τ s { u with lastResult := r, faultRecord := f } :=
  ⟨h.regs, h.bytes, h.index, h.pc, h.stack, h.delay, h.sound, h.frame, h.draws, h.keys, h.cfg, h.params⟩

/-- A meaning that ends with `complete u` completes with u's frame. -/
theorem Completes.of_complete {i : Instr} {τ : Touch} {s u : State} (h : exec i s = complete u)
    (hr : u.faultRecord = s.faultRecord) (hk : Keeps τ s u) :
    Completes i τ s (u.setResult .ok) :=
  ⟨h, rfl, hr, hk.result _ _⟩

/-- `raise e u` raises e with u's frame. -/
theorem Raises.of_raise {e : StepError} {τ : Touch} {s u : State} (hk : Keeps τ s u) :
    Raises (raise e u) e τ s ((u.recordFault e).setResult (.err e)) :=
  ⟨rfl, rfl, by simp, hk.result _ _⟩

/-- A word with the number of a decodable encoding decodes to it. -/
theorem EncodedAs.of_encode {i : Instr} {w : Nat} (h : decode (encode i) = .ok i) (hw : (encode i).toNat = w) :
    EncodedAs w i := by
  intro u hu
  rwa [BitVec.eq_of_toNat_eq (hu.trans hw.symm)]

/-- The number of the word at PC (20_memory.md R66). -/
theorem State.toNat_readWord (s : State) : (Memory.readWord s.mem s.pc.toNat).toNat = s.wordNumber :=
  Word.toNat_ofBytes _ _

/-- A step with PC above 0xFFE raises InvalidProgramCounter (30_encoding.md R87). -/
theorem step_of_invalidPc {s : State} (h : s.pc.toNat > 0xFFE) :
    step s = raise (.invalidProgramCounter s.pc) s := by
  simp [step, State.fetch, h, raiseInvalidPc]

/-- All that a step can be: the fetch error, the decode error, or exec of the decoded instruction with PC advanced. -/
theorem step_cases (s : State) :
    (s.pc.toNat > 0xFFE ∧ step s = raise (.invalidProgramCounter s.pc) s) ∨
    ∃ w : Word, s.pc.toNat ≤ 0xFFE ∧ w.toNat = s.wordNumber ∧
      ((decode w = .error .notWellFormed ∧ step s = raise (.notWellFormedInstruction w s.pc) s.advancePc) ∨
       ∃ i, decode w = .ok i ∧ step s = exec i s.advancePc) := by
  by_cases h : s.pc.toNat > 0xFFE
  · left
    exact ⟨h, step_of_invalidPc h⟩
  · right
    refine ⟨Memory.readWord s.mem s.pc.toNat, by omega, s.toNat_readWord, ?_⟩
    have hf : s.fetch = some (Memory.readWord s.mem s.pc.toNat) := by simp [State.fetch, h]
    cases hd : decode (Memory.readWord s.mem s.pc.toNat) with
    | ok i => exact .inr ⟨i, rfl, by simp [step, hf, hd]⟩
    | error e =>
      cases e
      refine .inl ⟨rfl, ?_⟩
      simp only [step, hf, hd, raiseDecodeError, State.fetchAddress, State.pc_advancePc]
      rw [BitVec.add_sub_cancel]

end Sys2Proof.Machine
end

