-- ==== Sys2Proof/Laws/Meanings.lean ====
section
/-! SUPPORT. All that the meanings with more than one outcome can do, one lemma each; every other meaning is one
`complete`, or one `raise`, by definition. -/

namespace Sys2Proof.Machine

/-- 00EE: underflow on an empty stack, else the last entry into PC (R111). -/
theorem execRet_cases (s : State) :
    (s.stack = [] ∧ exec .ret s = raise (.callStackUnderflow s.fetchAddress) s) ∨
    ∃ rest r, s.stack = rest ++ [r] ∧ exec .ret s = complete ({ s with stack := rest }.setPc r) := by
  rcases List.eq_nil_or_concat s.stack with h | ⟨rest, r, h⟩
  · exact .inl ⟨h, by simp [exec, execRet, State.pop_eq_none.2 h]⟩
  · rw [List.concat_eq_append] at h
    exact .inr ⟨rest, r, h, by simp [exec, execRet, State.pop_of_append h]⟩

/-- 2nnn: overflow on a full stack, else push and jump (R114). -/
theorem execCall_cases (nnn : Addr12) (s : State) :
    (s.stackFull = true ∧ exec (.call nnn) s = raise (.callStackOverflow s.fetchAddress) s) ∨
    (s.stackFull = false ∧ exec (.call nnn) s = complete ((s.push s.pc).setPc (addrOf nnn))) := by
  cases h : s.stackFull <;> simp [exec, execCall, h]

/-- The sprite bytes of Dxyn (R168). -/
def spriteRows (s : State) (n : Nibble) : List Byte :=
  (List.range n.toNat).map fun k => Memory.read s.mem (s.indexAddress + k)

/-- Dxyn: a fault when a sprite byte does not exist, else the draw (R168, R170). -/
theorem execDrw_cases (x y : RegIx) (n : Nibble) (s : State) :
    (n.toNat > 0 ∧ s.i.toNat + n.toNat > 0x1000 ∧ exec (.drw x y n) s = raise (.memoryAddressFault s.i n.toNat) s) ∨
    ((n.toNat = 0 ∨ s.i.toNat + n.toNat ≤ 0x1000) ∧
      exec (.drw x y n) s = complete (s.finishDraw
        (drawRows (s.originY y) (s.originX x) (spriteRows s n) { fb := s.fb, collision := false }))) := by
  by_cases h : n.toNat = 0 ∨ s.i.toNat + n.toNat ≤ 0x1000
  · right
    exact ⟨h, by simp [exec, execDrw, memRead_eq, State.indexAddress, h, spriteRows]⟩
  · left
    refine ⟨by omega, by omega, ?_⟩
    simp [exec, execDrw, memRead_eq, State.indexAddress, h]

theorem State.lowestKey_eq_some {s : State} {k : Nat} :
    s.lowestKey = some k ↔ k < 16 ∧ s.keyHeld k = true ∧ ∀ j, j < k → s.keyHeld j = false := by
  simp [State.lowestKey]
  grind

theorem State.lowestKey_eq_none {s : State} : s.lowestKey = none ↔ ∀ j, j < 16 → s.keyHeld j = false := by
  simp [State.lowestKey]

/-- Fx0A: the lowest held key, or PC back by 2 (R188). -/
theorem execLdVxK_cases (x : RegIx) (s : State) :
    (∃ k, s.lowestKey = some k ∧ k < 16 ∧ exec (.ldVxK x) s = complete (s.writeV x (BitVec.ofNat 8 k))) ∨
    (s.lowestKey = none ∧ exec (.ldVxK x) s = complete (s.setPc (s.pc - 2))) := by
  cases h : s.lowestKey with
  | none => right; simp [exec, execLdVxK, h]
  | some k => left; exact ⟨k, rfl, (State.lowestKey_eq_some.1 h).1, by simp [exec, execLdVxK, h]⟩

/-- Fx33: a fault when one of the three bytes does not exist, else the digits (R191). -/
theorem execLdB_cases (x : RegIx) (s : State) :
    (s.i.toNat + 3 > 0x1000 ∧ exec (.ldB x) s = raise (.memoryAddressFault s.i 3) s) ∨
    (s.i.toNat + 3 ≤ 0x1000 ∧ exec (.ldB x) s =
      complete { s with mem := Memory.writeBytes s.mem s.indexAddress (bcdDigits (s.readV x)) }) := by
  by_cases h : s.i.toNat + 3 ≤ 0x1000
  · right
    exact ⟨h, by simp [exec, execLdB, memWrite_eq, State.indexAddress, bcdDigits, h]⟩
  · left
    exact ⟨by omega, by simp [exec, execLdB, memWrite_eq, State.indexAddress, bcdDigits, h]⟩

/-- Fx55: a fault when a byte does not exist, else the store and then I (R196). -/
theorem execStoreRegs_cases (x : RegIx) (s : State) :
    (s.i.toNat + (x.toNat + 1) > 0x1000 ∧
      exec (.storeRegs x) s = raise (.memoryAddressFault s.i (x.toNat + 1)) s) ∨
    (s.i.toNat + (x.toNat + 1) ≤ 0x1000 ∧ exec (.storeRegs x) s =
      complete ({ s with mem := Memory.writeBytes s.mem s.indexAddress (s.regsUpTo x) }.advanceIndex x)) := by
  by_cases h : s.i.toNat + (x.toNat + 1) ≤ 0x1000
  · right
    exact ⟨h, by simp [exec, execStoreRegs, memWrite_eq, State.indexAddress, h]⟩
  · left
    exact ⟨by omega, by simp [exec, execStoreRegs, memWrite_eq, State.indexAddress, h]⟩

/-- Fx65: a fault when a byte does not exist, else the load and then I (R197). -/
theorem execLoadRegs_cases (x : RegIx) (s : State) :
    (s.i.toNat + (x.toNat + 1) > 0x1000 ∧
      exec (.loadRegs x) s = raise (.memoryAddressFault s.i (x.toNat + 1)) s) ∨
    (s.i.toNat + (x.toNat + 1) ≤ 0x1000 ∧ exec (.loadRegs x) s =
      complete ((s.writeRegs ((List.range (x.toNat + 1)).map
        fun k => Memory.read s.mem (s.indexAddress + k))).advanceIndex x)) := by
  by_cases h : s.i.toNat + (x.toNat + 1) ≤ 0x1000
  · right
    exact ⟨h, by simp [exec, execLoadRegs, memRead_eq, State.indexAddress, h]⟩
  · left
    exact ⟨by omega, by simp [exec, execLoadRegs, memRead_eq, State.indexAddress, h]⟩

/-- All that exec can be: it completes some state with the fault record as it was, or raises an error over s itself. -/
theorem exec_ends (i : Instr) (s : State) :
    (∃ u, exec i s = complete u ∧ u.faultRecord = s.faultRecord) ∨ ∃ e, exec i s = raise e s := by
  cases i with
  | ret =>
    rcases execRet_cases s with ⟨-, h⟩ | ⟨_, _, -, h⟩ <;> rw [h]
    exacts [.inr ⟨_, rfl⟩, .inl ⟨_, rfl, rfl⟩]
  | call nnn =>
    rcases execCall_cases nnn s with ⟨-, h⟩ | ⟨-, h⟩ <;> rw [h]
    exacts [.inr ⟨_, rfl⟩, .inl ⟨_, rfl, rfl⟩]
  | drw x y n =>
    rcases execDrw_cases x y n s with ⟨-, -, h⟩ | ⟨-, h⟩ <;> rw [h]
    exacts [.inr ⟨_, rfl⟩, .inl ⟨_, rfl, rfl⟩]
  | ldVxK x =>
    rcases execLdVxK_cases x s with ⟨k, -, -, h⟩ | ⟨-, h⟩ <;> rw [h]
    exacts [.inl ⟨_, rfl, rfl⟩, .inl ⟨_, rfl, rfl⟩]
  | ldB x =>
    rcases execLdB_cases x s with ⟨-, h⟩ | ⟨-, h⟩ <;> rw [h]
    exacts [.inr ⟨_, rfl⟩, .inl ⟨_, rfl, rfl⟩]
  | storeRegs x =>
    rcases execStoreRegs_cases x s with ⟨-, h⟩ | ⟨-, h⟩ <;> rw [h]
    exacts [.inr ⟨_, rfl⟩, .inl ⟨_, rfl, by simp⟩]
  | loadRegs x =>
    rcases execLoadRegs_cases x s with ⟨-, h⟩ | ⟨-, h⟩ <;> rw [h]
    exacts [.inr ⟨_, rfl⟩, .inl ⟨_, rfl, by simp⟩]
  | sys nnn => exact .inr ⟨_, rfl⟩
  | _ => exact .inl ⟨_, rfl, by simp [State.subInto, State.drawByte]⟩

end Sys2Proof.Machine
end

