-- ==== Sys2Proof/Laws/Host.lean ====
section
/-! SUPPORT. The host's side: what a step and a transaction can leave on record, key writes, runs, and the memory a
construction lays out. -/

namespace Sys2Proof.Machine

/-- The error of a step carries the address the word was fetched from. -/
@[simp] theorem State.fetchAddress_advancePc (s : State) : s.advancePc.fetchAddress = s.pc := by
  simp [State.fetchAddress, State.advancePc, State.setPc]

/-- The fetch advance changes PC alone. -/
theorem Keeps.advancePc (s : State) : Keeps { pc := True } s s.advancePc := by
  constructor <;> intros <;> first | rfl | simp_all

/-- All that a step can leave on record: it answers a next state, either Ok with the record as it was, or an error and
a record that keeps what it held (60_exceptions.md R209, R211). -/
theorem step_ends (s : State) : ∃ t, step s = .next t ∧
    ((t.lastResult = some .ok ∧ t.faultRecord = s.faultRecord) ∨
      ∃ e, t.lastResult = some (.err e) ∧ t.faultRecord = s.faultRecord.or (some e)) := by
  rcases step_cases s with ⟨-, h⟩ | ⟨w, -, -, ⟨-, h⟩ | ⟨i, -, h⟩⟩ <;> rw [h]
  · exact ⟨_, rfl, .inr ⟨_, rfl, rfl⟩⟩
  · exact ⟨_, rfl, .inr ⟨_, rfl, rfl⟩⟩
  · rcases exec_ends i s.advancePc with ⟨u, hu, hf⟩ | ⟨e, hu⟩ <;> rw [hu]
    · exact ⟨_, rfl, .inl ⟨rfl, hf⟩⟩
    · exact ⟨_, rfl, .inr ⟨_, rfl, rfl⟩⟩

/-- A key write changes K alone (10_state.md R47). -/
theorem State.writeKeys_eq (updates : List (Nibble × Bool)) (s : State) :
    s.writeKeys updates = { s with keys := (s.writeKeys updates).keys } := by
  induction updates generalizing s with
  | nil => rfl
  | cons p rest ih => rw [State.writeKeys, ih]; rfl

/-- One key flag after a key write: the update of its key, where the updates name no key twice. -/
theorem State.getElem?_writeKeys {updates : List (Nibble × Bool)} (h : updates.Pairwise fun p q => p.1 ≠ q.1)
    (s : State) (k : Nat) :
    (s.writeKeys updates).keys[k]? = ((updates.find? fun p => p.1.toNat == k).map Prod.snd).or s.keys[k]? := by
  induction updates generalizing s with
  | nil => rfl
  | cons p rest ih =>
    obtain ⟨j, held⟩ := p
    rw [List.pairwise_cons] at h
    rw [State.writeKeys, ih h.2, List.find?_cons]
    by_cases hj : j.toNat = k
    · subst hj
      have hn : rest.find? (fun p => p.1.toNat == j.toNat) = none := by
        rw [List.find?_eq_none]
        intro q hq hc
        exact h.1 q hq (BitVec.eq_of_toNat_eq (by simpa using (beq_iff_eq.1 hc).symm))
      simp [hn, State.writeKey]
    · rw [beq_eq_false_iff_ne.2 hj]
      simp [hj, State.writeKey]

/-- Every transaction answers a next state and keeps a recorded fault (60_exceptions.md R211). -/
theorem transact_ends (tr : Transaction) (s : State) :
    ∃ t, transact tr s = .next t ∧ ∀ e, s.faultRecord = some e → t.faultRecord = some e := by
  cases tr with
  | step =>
    obtain ⟨t, h, ⟨-, hr⟩ | ⟨e', -, hr⟩⟩ := step_ends s <;> exact ⟨t, h, fun e he => by simp [hr, he]⟩
  | writeKeys updates => exact ⟨_, rfl, by rw [State.writeKeys_eq]; exact fun _ h => h⟩
  | _ => exact ⟨_, rfl, fun _ h => h⟩

/-- A run is its first part followed by the rest. -/
theorem runTransactions_append {before : List Transaction} {s t : State} (h : runTransactions before s = .next t)
    (after : List Transaction) : runTransactions (before ++ after) s = runTransactions after t := by
  induction before generalizing s with
  | nil => cases h; rfl
  | cons x rest ih =>
    obtain ⟨u, hu, -⟩ := transact_ends x s
    simp only [runTransactions, hu, List.cons_append] at h ⊢
    exact ih h

/-- An address outside FONT reads 0x00 when unlisted (20_memory.md R61). -/
theorem Memory.unlisted_of_ge {a : Nat} (h : 80 ≤ a) : Memory.unlisted a = 0 :=
  List.getD_eq_default _ _ h

/-- The memory a construction lays out (70_reset_and_hazards.md R232). -/
theorem read_loadMemory (font : Vector Byte 80) {image : List Byte} (h : image.length ≤ 3584) (a : Nat) :
    Memory.read (loadMemory font.toList image) a =
      if a < 80 then font.toList.getD a 0 else if 0x200 ≤ a then image.getD (a - 0x200) 0 else 0 := by
  have h0 : Memory.wf ([] : Memory) := by decide
  rw [loadMemory, Memory.read_writeBytes (Memory.writeBytes_wf h0 _ _) (by unfold Config.programBase Config.memSize; omega),
    Memory.read_writeBytes h0 (by simp [Config.memSize])]
  unfold Config.programBase
  by_cases ha : a < 80
  · simp [ha, show ¬ 512 ≤ a by omega]
  · have hf : font.toList.getD (a - 0) (Memory.read [] a) = 0 := by
      rw [List.getD_eq_default _ _ (by simp; omega)]
      exact Memory.unlisted_of_ge (by omega)
    simp only [ha, if_false, Nat.zero_le, if_true, hf]

/-- The memory a construction lays out is canonical. -/
theorem loadMemory_wf (font image : List Byte) : Memory.wf (loadMemory font image) :=
  Memory.writeBytes_wf (Memory.writeBytes_wf (by decide) _ _) _ _

/-- What no reset policy touches (70_reset_and_hazards.md R231). -/
theorem constructed_fixed (c : Construction) (image : List Byte) :
    (constructed c image).mem = loadMemory c.font.toList image ∧ (constructed c image).pc = 0x200 ∧
      (constructed c image).stack = [] ∧ (constructed c image).faultRecord = none ∧
      (constructed c image).lastResult = none ∧ (constructed c image).cfg = c.cfg ∧
      (constructed c image).params = c.params := by
  unfold constructed applyResetPolicy
  split <;> exact ⟨rfl, rfl, rfl, rfl, rfl, rfl, rfl⟩

/-- The stack bound depends on the stack and the parameter alone. -/
theorem State.stackWithin_congr {s t : State} (h : t.stack = s.stack) (hp : t.params = s.params) :
    t.stackWithin = s.stackWithin := by
  unfold State.stackWithin
  rw [h, hp]

end Sys2Proof.Machine
end

