-- ==== Sys2Proof/Laws/PerInstr.lean ====
section
/-! SUPPORT. Per instruction: its word fits its row of spec/opcode_table.json, by the row's mask and match. -/

namespace Sys2Proof.Laws.TableFit

/-- The encoded word, masked, is the row's match. -/
def Statement (i : Instr) : Prop := encode i &&& (tableRow i).1 = (tableRow i).2

/-- A row that fixes the family alone, format NNN. -/
theorem fit_ofNNN (f : Nibble) (nnn : Addr12) : Word.ofNNN f nnn &&& (0xF#4 ++ 0#12) = f ++ 0#12 := by
  rw [Word.ofNNN, BitVec.and_append, BitVec.and_zero]
  exact congrArg (· ++ 0#12) (BitVec.and_allOnes (x := f))

/-- A row that fixes the family alone, format XKK. -/
theorem fit_ofXKK (f x : Nibble) (kk : Byte) :
    Word.ofXKK f x kk &&& ((0xF#4 ++ 0#4) ++ 0#8) = (f ++ 0#4) ++ 0#8 := by
  have e : Word.ofXKK f x kk = (f ++ x) ++ kk := rfl
  rw [e, BitVec.and_append, BitVec.and_append, BitVec.and_zero, BitVec.and_zero]
  exact congrArg (fun a => (a ++ 0#4) ++ 0#8) (BitVec.and_allOnes (x := f))

/-- A row that fixes the family and the sub-opcode kk, format XOP. -/
theorem fit_ofXOP (f x : Nibble) (op : Byte) :
    Word.ofXKK f x op &&& ((0xF#4 ++ 0#4) ++ 0xFF#8) = (f ++ 0#4) ++ op := by
  have e : Word.ofXKK f x op = (f ++ x) ++ op := rfl
  rw [e, BitVec.and_append, BitVec.and_append, BitVec.and_zero]
  exact congrArg₂ (fun a b => (a ++ 0#4) ++ b) (BitVec.and_allOnes (x := f)) (BitVec.and_allOnes (x := op))

/-- A row that fixes the family and the sub-opcode n, format XYN. -/
theorem fit_ofXYN (f x y n : Nibble) :
    Word.ofNibbles f x y n &&& (((0xF#4 ++ 0#4) ++ 0#4) ++ 0xF#4) = ((f ++ 0#4) ++ 0#4) ++ n := by
  have e : Word.ofNibbles f x y n = ((f ++ x) ++ y) ++ n := rfl
  rw [e, BitVec.and_append, BitVec.and_append, BitVec.and_append, BitVec.and_zero, BitVec.and_zero]
  exact congrArg₂ (fun a b => ((a ++ 0#4) ++ 0#4) ++ b) (BitVec.and_allOnes (x := f)) (BitVec.and_allOnes (x := n))

/-- The row of Dxyn, format XYN with n a row count. -/
theorem fit_drw (f x y n : Nibble) :
    Word.ofNibbles f x y n &&& (((0xF#4 ++ 0#4) ++ 0#4) ++ 0#4) = ((f ++ 0#4) ++ 0#4) ++ 0#4 := by
  have e : Word.ofNibbles f x y n = ((f ++ x) ++ y) ++ n := rfl
  rw [e, BitVec.and_append, BitVec.and_append, BitVec.and_append, BitVec.and_zero, BitVec.and_zero, BitVec.and_zero]
  exact congrArg (fun a => ((a ++ 0#4) ++ 0#4) ++ 0#4) (BitVec.and_allOnes (x := f))

theorem cls : Statement .cls := by
  unfold Statement; decide

theorem ret : Statement .ret := by
  unfold Statement; decide

theorem sys (nnn : Addr12) : Statement (.sys nnn) :=
  fit_ofNNN _ _

theorem jp (nnn : Addr12) : Statement (.jp nnn) :=
  fit_ofNNN _ _

theorem call (nnn : Addr12) : Statement (.call nnn) :=
  fit_ofNNN _ _

theorem seImm (x : RegIx) (kk : Byte) : Statement (.seImm x kk) :=
  fit_ofXKK _ _ _

theorem sneImm (x : RegIx) (kk : Byte) : Statement (.sneImm x kk) :=
  fit_ofXKK _ _ _

theorem seReg (x y : RegIx) : Statement (.seReg x y) :=
  fit_ofXYN _ _ _ _

theorem ldImm (x : RegIx) (kk : Byte) : Statement (.ldImm x kk) :=
  fit_ofXKK _ _ _

theorem addImm (x : RegIx) (kk : Byte) : Statement (.addImm x kk) :=
  fit_ofXKK _ _ _

theorem ldReg (x y : RegIx) : Statement (.ldReg x y) :=
  fit_ofXYN _ _ _ _

theorem orReg (x y : RegIx) : Statement (.orReg x y) :=
  fit_ofXYN _ _ _ _

theorem andReg (x y : RegIx) : Statement (.andReg x y) :=
  fit_ofXYN _ _ _ _

theorem xorReg (x y : RegIx) : Statement (.xorReg x y) :=
  fit_ofXYN _ _ _ _

theorem addReg (x y : RegIx) : Statement (.addReg x y) :=
  fit_ofXYN _ _ _ _

theorem subReg (x y : RegIx) : Statement (.subReg x y) :=
  fit_ofXYN _ _ _ _

theorem shr (x y : RegIx) : Statement (.shr x y) :=
  fit_ofXYN _ _ _ _

theorem subnReg (x y : RegIx) : Statement (.subnReg x y) :=
  fit_ofXYN _ _ _ _

theorem shl (x y : RegIx) : Statement (.shl x y) :=
  fit_ofXYN _ _ _ _

theorem sneReg (x y : RegIx) : Statement (.sneReg x y) :=
  fit_ofXYN _ _ _ _

theorem ldI (nnn : Addr12) : Statement (.ldI nnn) :=
  fit_ofNNN _ _

theorem jpV0 (nnn : Addr12) : Statement (.jpV0 nnn) :=
  fit_ofNNN _ _

theorem rnd (x : RegIx) (kk : Byte) : Statement (.rnd x kk) :=
  fit_ofXKK _ _ _

theorem drw (x y : RegIx) (n : Nibble) : Statement (.drw x y n) :=
  fit_drw _ _ _ _

theorem skp (x : RegIx) : Statement (.skp x) :=
  fit_ofXOP _ _ _

theorem sknp (x : RegIx) : Statement (.sknp x) :=
  fit_ofXOP _ _ _

theorem ldVxDt (x : RegIx) : Statement (.ldVxDt x) :=
  fit_ofXOP _ _ _

theorem ldVxK (x : RegIx) : Statement (.ldVxK x) :=
  fit_ofXOP _ _ _

theorem ldDtVx (x : RegIx) : Statement (.ldDtVx x) :=
  fit_ofXOP _ _ _

theorem ldStVx (x : RegIx) : Statement (.ldStVx x) :=
  fit_ofXOP _ _ _

theorem addI (x : RegIx) : Statement (.addI x) :=
  fit_ofXOP _ _ _

theorem ldF (x : RegIx) : Statement (.ldF x) :=
  fit_ofXOP _ _ _

theorem ldB (x : RegIx) : Statement (.ldB x) :=
  fit_ofXOP _ _ _

theorem storeRegs (x : RegIx) : Statement (.storeRegs x) :=
  fit_ofXOP _ _ _

theorem loadRegs (x : RegIx) : Statement (.loadRegs x) :=
  fit_ofXOP _ _ _

end Sys2Proof.Laws.TableFit
end

