-- ==== Sys2Proof/Tests/Slice0.lean ====
section
/-! SUPPORT. Tests on fixed values, the expected results taken from 95_test_vectors.md (named as there) or from the
rules, and for every statement with hypotheses a witness that meets them. -/

namespace Sys2Proof.Tests

open Sys2Proof Sys2Proof.Machine

/-! ### Helpers -/

/-- A state with the word placed at its PC. -/
def fetching (w : Word) (s : State) : State := s.placeWord w

/-- Some registers set. -/
def withV (l : List (RegIx × Byte)) (s : State) : State := l.foldl (fun t p => t.writeV p.1 p.2) s

/-- Some bytes placed in memory. -/
def withBytes (a : Nat) (bytes : List Byte) (s : State) : State := { s with mem := Memory.writeBytes s.mem a bytes }

/-- Some pixels on, each as (x, y). -/
def withPixels (l : List (Nat × Nat)) (s : State) : State :=
  { s with fb := l.foldl (fun f p => Framebuffer.setPixel f p.2 p.1 true) s.fb }

/-- Some keys held. -/
def withKeys (l : List Nibble) (s : State) : State := s.writeKeys (l.map fun k => (k, true))

/-- The state a result holds; the reset state where it holds none. -/
def stateOf : Result → State
  | .next t => t
  | .fault _ => State.reset
  | .refused _ => State.reset

/-- The state after one step. -/
def stepped (s : State) : State := stateOf (step s)

/-- The named registers. -/
def regs (s : State) (l : List RegIx) : List Byte := l.map s.readV

/-- n bytes of memory from a. -/
def bytesAt (s : State) (a n : Nat) : List Byte := (List.range n).map fun k => Memory.read s.mem (a + k)

/-- The pixels that are on among the first rows and columns, as (x, y). -/
def lit (s : State) (rows columns : List Nat) : List (Nat × Nat) :=
  rows.flatMap fun y => (columns.filter fun x => Framebuffer.pixel s.fb y x).map fun x => (x, y)

/-! ### WellFormed (30_encoding.md R85): the one check, on its two words -/

theorem test_wellFormed_refuses_sys_0E0 : (Instr.sys 0x0E0).wellFormed = false := by decide
theorem test_wellFormed_refuses_sys_0EE : (Instr.sys 0x0EE).wellFormed = false := by decide
theorem test_wellFormed_accepts_sys_123 : (Instr.sys 0x123).wellFormed = true := by decide

/-! ### Decoding: one word per constructor, written from the opcode map (R84), and the rejected words of B1 -/

theorem test_decode_family_0 : decode 0x00E0 = .ok .cls ∧ decode 0x00EE = .ok .ret ∧
    decode 0x0123 = .ok (.sys 0x123) ∧ decode 0x00E1 = .ok (.sys 0x0E1) := ⟨rfl, rfl, rfl, rfl⟩
theorem test_decode_jumps : decode 0x1ABC = .ok (.jp 0xABC) ∧ decode 0x2400 = .ok (.call 0x400) ∧
    decode 0xB500 = .ok (.jpV0 0x500) := ⟨rfl, rfl, rfl⟩
theorem test_decode_skips : decode 0x3310 = .ok (.seImm 0x3 0x10) ∧ decode 0x4310 = .ok (.sneImm 0x3 0x10) ∧
    decode 0x5120 = .ok (.seReg 0x1 0x2) ∧ decode 0x9120 = .ok (.sneReg 0x1 0x2) ∧
    decode 0xE19E = .ok (.skp 0x1) ∧ decode 0xE1A1 = .ok (.sknp 0x1) := ⟨rfl, rfl, rfl, rfl, rfl, rfl⟩
theorem test_decode_immediates : decode 0x6A42 = .ok (.ldImm 0xA 0x42) ∧ decode 0x7F05 = .ok (.addImm 0xF 0x05) ∧
    decode 0xA300 = .ok (.ldI 0x300) ∧ decode 0xC10F = .ok (.rnd 0x1 0x0F) := ⟨rfl, rfl, rfl, rfl⟩
theorem test_decode_family_8_low : decode 0x8120 = .ok (.ldReg 0x1 0x2) ∧ decode 0x8121 = .ok (.orReg 0x1 0x2) ∧
    decode 0x8122 = .ok (.andReg 0x1 0x2) ∧ decode 0x8123 = .ok (.xorReg 0x1 0x2) := ⟨rfl, rfl, rfl, rfl⟩
theorem test_decode_family_8_high : decode 0x8124 = .ok (.addReg 0x1 0x2) ∧ decode 0x8125 = .ok (.subReg 0x1 0x2) ∧
    decode 0x8126 = .ok (.shr 0x1 0x2) ∧ decode 0x8127 = .ok (.subnReg 0x1 0x2) ∧
    decode 0x812E = .ok (.shl 0x1 0x2) := ⟨rfl, rfl, rfl, rfl, rfl⟩
theorem test_decode_draw : decode 0xDAB2 = .ok (.drw 0xA 0xB 0x2) := rfl
theorem test_decode_family_F_low : decode 0xF307 = .ok (.ldVxDt 0x3) ∧ decode 0xF20A = .ok (.ldVxK 0x2) ∧
    decode 0xF315 = .ok (.ldDtVx 0x3) ∧ decode 0xF318 = .ok (.ldStVx 0x3) ∧
    decode 0xF21E = .ok (.addI 0x2) := ⟨rfl, rfl, rfl, rfl, rfl⟩
theorem test_decode_family_F_high : decode 0xF529 = .ok (.ldF 0x5) ∧ decode 0xF033 = .ok (.ldB 0x0) ∧
    decode 0xF355 = .ok (.storeRegs 0x3) ∧ decode 0xF265 = .ok (.loadRegs 0x2) := ⟨rfl, rfl, rfl, rfl⟩
theorem test_decode_rejects : ∀ w ∈ [0x5121#16, 0x8008#16, 0x800F#16, 0x9AB1#16, 0xE000#16, 0xF000#16, 0xFFFF#16, 0xF056#16],
    decode w = .error .notWellFormed := by
  intro w h
  fin_cases h <;> rfl
theorem test_encode_words : encode (.call 0x208) = 0x2208 ∧ encode (.shl 0x1 0x2) = 0x812E ∧
    encode (.drw 0xA 0xB 0x2) = 0xDAB2 ∧ encode (.loadRegs 0x2) = 0xF265 := by decide
theorem test_decodeTableWord : decodeTableWord 16 0x6005 = some (.ldImm 0x0 0x05) ∧ decodeTableWord 16 0x5121 = none := by
  decide

theorem test_withFetchWord : State.reset.withFetchWord 16 0x6A42 = fetching 0x6A42 State.reset := by decide

/-! ### The cycle (B1) -/

/-- B1.1. -/
theorem test_fetch_above_FFE : (stepped { State.reset with pc := 0xFFF }).lastResult =
    some (.err (.invalidProgramCounter 0xFFF)) ∧ (stepped { State.reset with pc := 0xFFF }).pc = 0xFFF := by decide
/-- B1.3. -/
theorem test_fetch_at_FFE : (stepped (fetching 0x6011 { State.reset with pc := 0xFFE })).pc = 0x1000 ∧
    (stepped (fetching 0x6011 { State.reset with pc := 0xFFE })).readV 0x0 = 0x11 := by decide
/-- B1.4. -/
theorem test_fetch_odd : (stepped (withBytes 0x201 [0x63, 0x07] { State.reset with pc := 0x201 })).readV 0x3 = 0x07 := by
  decide
/-- B1.5. -/
theorem test_not_wellFormed_word : (stepped (fetching 0x5121 State.reset)).lastResult =
    some (.err (.notWellFormedInstruction 0x5121 0x200)) ∧ (stepped (fetching 0x5121 State.reset)).pc = 0x202 := by decide
/-- B1.12, big-endian. -/
theorem test_big_endian : (withBytes 0x200 [0x00, 0xE0] State.reset).fetch = some 0x00E0 := by decide
/-- 60_exceptions.md R211: a second error leaves the first on record; the last result is the second. -/
theorem test_record_keeps_first : (stepped (stepped (fetching 0x00EE State.reset))).faultRecord =
    some (.callStackUnderflow 0x200) ∧
    (stepped (stepped (fetching 0x00EE State.reset))).lastResult = some (.err (.unsupportedInstruction 0x0000 0x202)) := by
  decide

/-! ### Control flow (B2) -/

/-- B2.1. -/
theorem test_cls : (stepped (fetching 0x00E0 (withPixels [(5, 5), (63, 0)] State.reset))).fb = Framebuffer.clear := by decide
/-- B2.2. -/
theorem test_ret : (stepped (fetching 0x00EE { State.reset with pc := 0x400, stack := [0x30A, 0x20C] })).pc = 0x20C ∧
    (stepped (fetching 0x00EE { State.reset with pc := 0x400, stack := [0x30A, 0x20C] })).stack = [0x30A] := by decide
/-- B2.3. -/
theorem test_ret_underflow : (stepped (fetching 0x00EE { State.reset with pc := 0x208 })).lastResult =
    some (.err (.callStackUnderflow 0x208)) ∧ (stepped (fetching 0x00EE { State.reset with pc := 0x208 })).pc = 0x20A := by
  decide
/-- B1.11. -/
theorem test_sys : (stepped (fetching 0x0123 State.reset)).lastResult = some (.err (.unsupportedInstruction 0x0123 0x200)) ∧
    (stepped (fetching 0x0123 State.reset)).pc = 0x202 := by decide
/-- B2.5. -/
theorem test_jp : (stepped (fetching 0x1ABC State.reset)).pc = 0xABC := by decide
/-- B2.7. -/
theorem test_call : (stepped (fetching 0x2400 State.reset)).stack = [0x202] ∧
    (stepped (fetching 0x2400 State.reset)).pc = 0x400 := by decide
/-- B2.8. -/
theorem test_call_overflow :
    (stepped (fetching 0x2400 { State.reset with pc := 0x300, stack := List.replicate 16 0x202 })).lastResult =
      some (.err (.callStackOverflow 0x300)) := by decide
/-- B2.10 and B2.11. -/
theorem test_seImm : (stepped (fetching 0x3310 (withV [(0x3, 0x10)] State.reset))).pc = 0x204 ∧
    (stepped (fetching 0x3310 (withV [(0x3, 0x11)] State.reset))).pc = 0x202 := by decide
/-- B2.12 and B2.13. -/
theorem test_sneImm : (stepped (fetching 0x4310 (withV [(0x3, 0x11)] State.reset))).pc = 0x204 ∧
    (stepped (fetching 0x4310 (withV [(0x3, 0x10)] State.reset))).pc = 0x202 := by decide
/-- B2.14 and B2.15. -/
theorem test_seReg : (stepped (fetching 0x5110 (withV [(0x1, 7)] State.reset))).pc = 0x204 ∧
    (stepped (fetching 0x5120 (withV [(0x1, 7), (0x2, 8)] State.reset))).pc = 0x202 := by decide
/-- B2.16 and B2.17. -/
theorem test_sneReg : (stepped (fetching 0x9120 (withV [(0x1, 7), (0x2, 8)] State.reset))).pc = 0x204 ∧
    (stepped (fetching 0x9110 (withV [(0x1, 7)] State.reset))).pc = 0x202 := by decide

/-! ### Register operations (B3) -/

/-- B3.1. -/
theorem test_ldImm : (stepped (fetching 0x6A42 State.reset)).readV 0xA = 0x42 := by decide
/-- B3.4. -/
theorem test_addImm : regs (stepped (fetching 0x7001 (withV [(0x0, 0xFF), (0xF, 1)] State.reset))) [0x0, 0xF] =
    [0x00, 1] := by decide
/-- B3.6. -/
theorem test_ldReg : (stepped (fetching 0x8120 (withV [(0x2, 0x3C)] State.reset))).readV 0x1 = 0x3C := by decide
/-- B3.7. -/
theorem test_orReg :
    regs (stepped (fetching 0x8121 (withV [(0x1, 0xF0), (0x2, 0x0F), (0xF, 1)] State.reset))) [0x1, 0xF] = [0xFF, 1] := by
  decide
/-- B3.8. -/
theorem test_andReg : (stepped (fetching 0x8122 (withV [(0x1, 0xF0), (0x2, 0x3C)] State.reset))).readV 0x1 = 0x30 := by decide
/-- B3.9. -/
theorem test_xorReg : (stepped (fetching 0x8123 (withV [(0x1, 0xF0), (0x2, 0x3C)] State.reset))).readV 0x1 = 0xCC := by decide
/-- B3.11. -/
theorem test_addReg : regs (stepped (fetching 0x8124 (withV [(0x1, 0xC8), (0x2, 0x64)] State.reset))) [0x1, 0xF] =
    [0x2C, 1] := by decide
/-- B3.17: VF is read before the flag is written. -/
theorem test_addReg_reads_VF_first : regs (stepped (fetching 0x81F4 (withV [(0x1, 0x05), (0xF, 0xFE)] State.reset)))
    [0x1, 0xF] = [0x03, 1] := by decide
/-- B3.20. -/
theorem test_subReg : regs (stepped (fetching 0x8125 (withV [(0x1, 0x00), (0x2, 0x01)] State.reset))) [0x1, 0xF] =
    [0xFF, 0] := by decide
/-- B3.22: the flag wins in VF. -/
theorem test_subReg_into_VF : (stepped (fetching 0x8F15 (withV [(0xF, 0x05), (0x1, 0x07)] State.reset))).readV 0xF = 0 := by
  decide
/-- B3.23. -/
theorem test_subnReg : regs (stepped (fetching 0x8127 (withV [(0x1, 0x03), (0x2, 0x0A)] State.reset))) [0x1, 0xF] =
    [0x07, 1] := by decide
/-- B3.26. -/
theorem test_shr : regs (stepped (fetching 0x8126 (withV [(0x1, 0xFF), (0x2, 0x05)] State.reset))) [0x1, 0x2, 0xF] =
    [0x02, 0x05, 1] := by decide
/-- B3.27. -/
theorem test_shr_quirk : regs (stepped (fetching 0x8126 (withV [(0x1, 0xFF), (0x2, 0x05)]
    { State.reset with cfg := { shiftQuirk := true, loadStoreQuirk := false } }))) [0x1, 0xF] = [0x7F, 1] := by decide
/-- B3.30. -/
theorem test_shl : regs (stepped (fetching 0x812E (withV [(0x1, 0x81), (0x2, 0x03)] State.reset))) [0x1, 0xF] =
    [0x06, 0] := by decide
/-- B3.33. -/
theorem test_shl_quirk : (stepped (fetching 0x8F0E (withV [(0xF, 0x81)]
    { State.reset with cfg := { shiftQuirk := true, loadStoreQuirk := false } }))).readV 0xF = 1 := by decide

/-! ### Addressing (B4) and random (B5) -/

/-- B4.1. -/
theorem test_ldI : (stepped (fetching 0xA300 { State.reset with i := 0x1234 })).i = 0x0300 := by decide
/-- B4.3 and B4.4. -/
theorem test_jpV0 : (stepped (fetching 0xBF01 (withV [(0x0, 0xFF)] State.reset))).pc = 0x1000 ∧
    (stepped (fetching 0xB500 (withV [(0x0, 0xFF)] State.reset))).pc = 0x5FF := by decide
/-- B4.5 and B4.6. -/
theorem test_addI : (stepped (fetching 0xF21E (withV [(0x2, 0x02)] { State.reset with i := 0x0FFF }))).i = 0x1001 ∧
    (stepped (fetching 0xF21E (withV [(0x2, 0x01)] { State.reset with i := 0xFFFF }))).i = 0x0000 := by decide
/-- B4.7 and B4.11. -/
theorem test_ldF : (stepped (fetching 0xF529 (withV [(0x5, 0x0A)] State.reset))).i = 0x0032 ∧
    (stepped (fetching 0xF529 (withV [(0x5, 0xFF)] State.reset))).i = 0x04FB := by decide
/-- B4.10. -/
theorem test_ldF_masked : (stepped (fetching 0xF529 (withV [(0x5, 0x1A)]
    { State.reset with params := { stackDepth := .bounded 16, fx29Wide := .masked } }))).i = 0x0032 := by decide
/-- B5.2 and R161: whatever the drawn byte is, masked by 0x00 it is 0x00, and one byte is drawn. -/
theorem test_rnd_masked_by_zero : (stepped (fetching 0xC100 (withV [(0x1, 0x55)] State.reset))).draws = 1 ∧
    ∀ b, ((stepped (fetching 0xC100 (withV [(0x1, 0x55)] State.reset))).readV 0x1).getLsbD b = false := by
  refine ⟨rfl, fun b => ?_⟩
  show (Config.randomByte 0 &&& 0x00#8).getLsbD b = false
  simp

/-! ### Draw (B6) -/

/-- B6.1: the glyph of digit 0, VF = 0. -/
theorem test_drw_glyph : lit (stepped (fetching 0xD015 State.reset)) [0, 1, 2, 3, 4, 5] [0, 1, 2, 3, 4, 5] =
    [(0, 0), (1, 0), (2, 0), (3, 0), (0, 1), (3, 1), (0, 2), (3, 2), (0, 3), (3, 3), (0, 4), (1, 4), (2, 4), (3, 4)] := by
  decide
/-- B6.6: clipping at the right edge and a collision. -/
theorem test_drw_clips_and_collides :
    lit (stepped (fetching 0xD011 (withPixels [(62, 0)] (withBytes 0x300 [0xFF] (withV [(0x0, 60)]
      { State.reset with i := 0x300 }))))) [0, 1] [0, 1, 2, 3, 60, 61, 62, 63] = [(60, 0), (61, 0), (63, 0)] ∧
    (stepped (fetching 0xD011 (withPixels [(62, 0)] (withBytes 0x300 [0xFF] (withV [(0x0, 60)]
      { State.reset with i := 0x300 }))))).readV 0xF = 1 := by decide

/-! ### Input (B7) -/

/-- B7.3 and B7.2. -/
theorem test_skp : (stepped (fetching 0xE19E (withKeys [0xA] (withV [(0x1, 0x1A)] State.reset)))).pc = 0x204 ∧
    (stepped (fetching 0xE19E (withV [(0x1, 0x05)] State.reset))).pc = 0x202 := by decide
/-- B7.4 and B7.5. -/
theorem test_sknp : (stepped (fetching 0xE1A1 (withV [(0x1, 0x05)] State.reset))).pc = 0x204 ∧
    (stepped (fetching 0xE1A1 (withKeys [0x5] (withV [(0x1, 0x05)] State.reset)))).pc = 0x202 := by decide

/-! ### Timers and miscellany (B8), tick (B9) -/

/-- B8.1. -/
theorem test_ldVxDt : (stepped (fetching 0xF307 { State.reset with dt := 0x3C })).readV 0x3 = 0x3C := by decide
/-- B8.2. -/
theorem test_ldDtVx : (stepped (fetching 0xF315 (withV [(0x3, 0x3C)] State.reset))).dt = 0x3C := by decide
/-- B8.3. -/
theorem test_ldStVx : (stepped (fetching 0xF318 (withV [(0x3, 0x05)] State.reset))).st = 0x05 := by decide
/-- B8.4. -/
theorem test_ldVxK_waits : (stepped (fetching 0xF20A { State.reset with pc := 0x210 })).pc = 0x210 ∧
    (stepped (fetching 0xF20A { State.reset with pc := 0x210 })).lastResult = some .ok := by decide
/-- B8.5. -/
theorem test_ldVxK_lowest : (stepped (fetching 0xF20A (withKeys [0x9, 0x3] State.reset))).readV 0x2 = 0x03 ∧
    (stepped (fetching 0xF20A (withKeys [0x9, 0x3] State.reset))).pc = 0x202 := by decide
/-- B8.7. -/
theorem test_ldB : bytesAt (stepped (fetching 0xF033 (withV [(0x0, 0xFE)] { State.reset with i := 0x300 }))) 0x300 3 =
    [0x02, 0x05, 0x04] := by decide
/-- B8.12. -/
theorem test_ldB_fault : (stepped (fetching 0xF033 { State.reset with i := 0xFFE })).lastResult =
    some (.err (.memoryAddressFault 0xFFE 3)) := by decide
/-- B8.15. -/
theorem test_storeRegs : bytesAt (stepped (fetching 0xF355 (withV [(0x0, 1), (0x1, 2), (0x2, 3), (0x3, 4)]
      { State.reset with i := 0x300 }))) 0x300 5 = [1, 2, 3, 4, 0] ∧
    (stepped (fetching 0xF355 { State.reset with i := 0x300 })).i = 0x304 := by decide
/-- B8.18. -/
theorem test_storeRegs_fault : (stepped (fetching 0xF155 { State.reset with i := 0xFFF })).lastResult =
    some (.err (.memoryAddressFault 0xFFF 2)) ∧ (stepped (fetching 0xF155 { State.reset with i := 0xFFF })).i = 0xFFF := by
  decide
/-- B8.20. -/
theorem test_loadRegs : regs (stepped (fetching 0xF265 (withBytes 0x300 [0x02, 0x05, 0x04, 0x99]
    { State.reset with i := 0x300 }))) [0x0, 0x1, 0x2, 0x3] = [0x02, 0x05, 0x04, 0x00] := by decide
/-- B8.21. -/
theorem test_loadRegs_quirk : (stepped (fetching 0xF265
    { State.reset with i := 0x300, cfg := { shiftQuirk := false, loadStoreQuirk := true } })).i = 0x300 := by decide
/-- B9.1 and B9.3. -/
theorem test_tick : ({ State.reset with dt := 0xFF, st := 0x02 } : State).tick.dt = 0xFE ∧
    ({ State.reset with dt := 0xFF, st := 0x02 } : State).tick.st = 0x01 ∧ State.reset.tick = State.reset := by decide

/-! ### Reset and construction (70_reset_and_hazards.md) -/

/-- The reset state is what the spec's defaults construct from an empty image (R231, R233). -/
theorem test_construct_empty : construct (defaultConstruction [] { shiftQuirk := false, loadStoreQuirk := false }) =
    .next State.reset := by rfl
/-- A9's image: the first byte at 0x200, the font below, PC = 0x200. -/
theorem test_construct_image :
    bytesAt (stateOf (construct (defaultConstruction [0x60, 0x05, 0x70, 0x03, 0x00, 0x00]
      { shiftQuirk := false, loadStoreQuirk := false }))) 0x1FF 5 = [0x00, 0x60, 0x05, 0x70, 0x03] := by decide
/-- R208: 3585 bytes do not fit. -/
theorem test_construct_too_large : construct (defaultConstruction (List.replicate 3585 0)
    { shiftQuirk := false, loadStoreQuirk := false }) = .fault (.programTooLarge 3585) := by
  have h : (List.replicate 3585 (0 : Byte)).length > Config.maxImage := by rw [List.length_replicate]; decide
  unfold construct defaultConstruction
  dsimp only
  rw [if_pos h, List.length_replicate]
theorem test_reset_mem_wf : Memory.wf State.reset.mem := by decide
/-- The glyph of digit A at 5 * 10 (R63). -/
theorem test_font_digit_A : bytesAt State.reset 50 5 = [0xF0, 0x90, 0xF0, 0x90, 0x90] := by decide

/-! ### Witnesses: concrete values that meet the hypotheses of the statements, at the boundaries of their ranges -/

/-- Every number of an `EncodedAs` up to 0xFFFF is some word's. -/
theorem witness_EncodedAs : (0xFFFF#16).toNat = 0xFFFF ∧ (0x0000#16).toNat = 0 ∧
    ∀ w, w < 65536 → ∃ u : Word, u.toNat = w :=
  ⟨rfl, rfl, fun w h => ⟨BitVec.ofNat 16 w, by simp; omega⟩⟩

theorem witness_DecodeInvertsEncode : (Instr.sys 0x0E1).wellFormed = true ∧ Instr.ret.wellFormed = true := by decide
theorem witness_EncodeInvertsDecode : decode 0xF265 = .ok (.loadRegs 0x2) := rfl
theorem witness_DecodeRejectsExactly : NotWellFormedWord (0xE000#16).toNat = true ∧
    NotWellFormedWord (0xE09E#16).toNat = false := by decide
/-- Both clauses of DecodeFollowsTable, the second also on the overlapping words. -/
theorem witness_DecodeFollowsTable : decode 0x5120 = .ok (.seReg 0x1 0x2) ∧
    (0x5120#16 &&& (tableRow (.seReg 0x3 0x4)).1 = (tableRow (.seReg 0x3 0x4)).2) ∧
    (0x00E0#16 &&& (tableRow (.sys 0x123)).1 = (tableRow (.sys 0x123)).2) := ⟨rfl, rfl, rfl⟩

/-- At the last fetchable address. -/
theorem witness_StepRunsDecodedInstruction :
    let s := fetching 0x6011 { State.reset with pc := 0xFFE }
    s.pc.toNat ≤ 0xFFE ∧ (0x6011#16).toNat =
      256 * (Memory.read s.mem s.pc.toNat).toNat + (Memory.read s.mem (s.pc.toNat + 1)).toNat ∧
    decode 0x6011 = .ok (.ldImm 0x0 0x11) := ⟨by decide, by decide, rfl⟩
theorem witness_FetchBoundRaises : ({ State.reset with pc := 0xFFF } : State).pc.toNat > 0xFFE ∧
    ({ State.reset with pc := 0xFFE } : State).pc.toNat ≤ 0xFFE := by decide
theorem witness_DecodeErrorsAdvanceOnly_notWellFormed : (fetching 0x9AB1 State.reset).pc.toNat ≤ 0xFFE ∧
    (0x9AB1#16).toNat = (fetching 0x9AB1 State.reset).wordNumber ∧ decode 0x9AB1 = .error .notWellFormed :=
  ⟨by decide, by decide, rfl⟩
theorem witness_DecodeErrorsAdvanceOnly_unsupported : (fetching 0x00EF State.reset).pc.toNat ≤ 0xFFE ∧
    (0x00EF#16).toNat = (fetching 0x00EF State.reset).wordNumber ∧ ∃ nnn, decode 0x00EF = .ok (.sys nnn) :=
  ⟨by decide, by decide, _, rfl⟩
/-- Each branch of `expectedError`, in its order. -/
theorem witness_StepAnswersExpectedError :
    ({ State.reset with pc := 0xFFF } : State).expectedError = some (.invalidProgramCounter 0xFFF) ∧
    (fetching 0xF056 State.reset).expectedError = some (.notWellFormedInstruction 0xF056 0x200) ∧
    State.reset.expectedError = some (.unsupportedInstruction 0x0000 0x200) ∧
    (fetching 0x00EE State.reset).expectedError = some (.callStackUnderflow 0x200) ∧
    (fetching 0x2200 { State.reset with stack := List.replicate 16 0x202 }).expectedError =
      some (.callStackOverflow 0x200) ∧
    (fetching 0xF155 { State.reset with i := 0xFFF }).expectedError = some (.memoryAddressFault 0xFFF 2) ∧
    (fetching 0xF055 { State.reset with i := 0xFFF }).expectedError = none := by decide

/-- Both clauses of RetPopsOrUnderflows, and a popped address above 0xFFE (B2.4). -/
theorem witness_RetPopsOrUnderflows : State.reset.stack = [] ∧
    ({ State.reset with stack := [0x1000] } : State).stack = [] ++ [0x1000] ∧ (0x1000#16).toNat > 0xFFE := by decide
theorem witness_SysRaisesUnsupported : (0x0E1#12 ≠ 0x0E0 ∧ 0x0E1#12 ≠ 0x0EE) ∧ (0x00E1#16).toNat = (0x0E1#12).toNat := by
  decide
theorem witness_JpSetsPc : (0xFFF#12).toNat = 0xFFF := rfl
/-- A full stack, an unbounded one, and one entry short of full. -/
theorem witness_CallPushesOrOverflows :
    (State.reset.params.stackDepth = .bounded 16 ∧
      ({ State.reset with stack := List.replicate 16 0x202 } : State).stack.length = 16) ∧
    ({ State.reset with params := { stackDepth := .unbounded, fx29Wide := .unmasked } } : State).params.stackDepth =
      .unbounded ∧
    ({ State.reset with stack := List.replicate 15 0x202 } : State).stack.length < 16 := by decide
/-- Each of the four conditions holding, and each failing. -/
theorem witness_RegisterSkips : State.reset.readV 0x1 = 0x00 ∧ State.reset.readV 0x1 ≠ 0x01 ∧
    State.reset.readV 0x1 = State.reset.readV 0x2 ∧
    (withV [(0x1, 7)] State.reset).readV 0x1 ≠ (withV [(0x1, 7)] State.reset).readV 0x2 := by decide
/-- A word beside 5xy0 and one beside 9xy0, at both ends of n. -/
theorem witness_RegisterSkips_other_words : (0x1#4 ≠ 0 ∧ (0x5121#16).toNat = 0x5000 + 0x100 * 1 + 0x10 * 2 + (0x1#4).toNat) ∧
    (0xF#4 ≠ 0 ∧ (0x9ABF#16).toNat = 0x9000 + 0x100 * 10 + 0x10 * 11 + (0xF#4).toNat) := by decide
/-- The destinations that are not VF, and both values of the shift quirk. -/
theorem witness_flag_results : (0xE#4 ≠ 0xF#4 ∧ 0x0#4 ≠ 0xF#4) ∧
    (0x05#8 = if (withV [(0x2, 0x05)] State.reset).cfg.shiftQuirk = true then (withV [(0x2, 0x05)] State.reset).readV 0x1
      else (withV [(0x2, 0x05)] State.reset).readV 0x2) ∧
    (0xFF#8 = if ({ State.reset with cfg := { shiftQuirk := true, loadStoreQuirk := false } } : State).cfg.shiftQuirk = true
      then 0xFF#8 else 0x05#8) := by decide
/-- A flag instruction that completes, and one that does not write VF. -/
theorem witness_FlagSideEffects :
    (∃ t, exec (.addReg 0x1 0x2) State.reset = .next t ∧ writesFlag (.addReg 0x1 0x2) = true ∧
      t.lastResult = some .ok) ∧
    ∃ t, exec (.orReg 0x1 0x2) State.reset = .next t ∧ writesReg (.orReg 0x1 0x2) 0xF = false :=
  ⟨⟨_, rfl, rfl, rfl⟩, ⟨_, rfl, rfl⟩⟩

theorem witness_ComputedJumpAddsV0 : (0xF01#12).toNat + ((withV [(0x0, 0xFF)] State.reset).readV 0x0).toNat > 0xFFE := by
  decide
/-- The three cases of Fx29 at their boundaries. -/
theorem witness_DigitAddressIsFiveTimes :
    ((withV [(0x5, 0x0F)] State.reset).readV 0x5).toNat ≤ 0x0F ∧
    (((withV [(0x5, 0x10)] State.reset).readV 0x5).toNat > 0x0F ∧ State.reset.params.fx29Wide = .unmasked) ∧
    ((withV [(0x5, 0x10)] { State.reset with params := { stackDepth := .bounded 16, fx29Wide := .masked } }).readV 0x5).toNat
      > 0x0F := by decide
theorem witness_RandomIsMasked : (0x0F#8).getLsbD 4 = false ∧ (0x00#8).getLsbD 0 = false := by decide
/-- The last sprite that fits, and the first that does not (B6.11, B6.9). -/
theorem witness_DrawTogglesCoveredPixels :
    ((0x3#4).toNat > 0 ∧ ({ State.reset with i := 0xFFE } : State).i.toNat + (0x3#4).toNat - 1 > 0xFFF) ∧
    ({ State.reset with i := 0xFFD } : State).i.toNat + (0x3#4).toNat - 1 ≤ 0xFFF := by decide
/-- A covered pixel at the corner of the screen (C3), so that both sides of the pixel law occur. -/
theorem witness_SpriteCovers :
    SpriteCovers (withBytes 0x300 [0xC0, 0x80] (withV [(0xA, 0x3F), (0xB, 0x1F)] { State.reset with i := 0x300 }))
      0xA 0xB 0x2 31 63 :=
  ⟨0, 0, by decide, by decide, by decide, by decide, by decide, by decide, by decide⟩
/-- The glyph of digit 0 drawn at the origin held in V0 and V1. -/
theorem witness_DrawTwiceRestores : ∃ t, exec (.drw 0x0 0x1 0x5) State.reset = .next t ∧
    ((0x5#4).toNat > 0 → State.reset.i.toNat + (0x5#4).toNat - 1 ≤ 0xFFF) ∧
    (t.readV 0x0).toNat % 64 = (State.reset.readV 0x0).toNat % 64 ∧
    (t.readV 0x1).toNat % 32 = (State.reset.readV 0x1).toNat % 32 := ⟨_, rfl, by decide, by decide, by decide⟩

/-- A held and a released key, the number of the key above 0x0F (B7.3). -/
theorem witness_KeySkips :
    (withKeys [0xA] (withV [(0x1, 0x1A)] State.reset)).keys[((withV [(0x1, 0x1A)] State.reset).readV 0x1).toNat % 16]? =
      some true ∧
    (withV [(0x1, 0x1A)] State.reset).keys[((withV [(0x1, 0x1A)] State.reset).readV 0x1).toNat % 16]? = some false := by
  decide
/-- The highest key alone, and no key. -/
theorem witness_WaitForKeyTakesLowest :
    ((withKeys [0xF] State.reset).keys[15]? = some true ∧ ∀ j, j < 15 → (withKeys [0xF] State.reset).keys[j]? = some false) ∧
    ∀ j, j < 16 → State.reset.keys[j]? = some false := by decide
/-- A jump to itself at 0x20C (C1), and Fx0A with no key held. -/
theorem witness_FixedPointsOfStep :
    ((fetching 0x120C { State.reset with pc := 0x20C }).pc.toNat ≤ 0xFFE ∧
      (fetching 0x120C { State.reset with pc := 0x20C }).wordNumber = 0x1000 + 0x20C) ∧
    ((fetching 0xF20A State.reset).wordNumber / 0x1000 = 0xF ∧ (fetching 0xF20A State.reset).wordNumber % 0x100 = 0x0A ∧
      ∀ j, j < 16 → (fetching 0xF20A State.reset).keys[j]? = some false) := by decide
/-- The last I that fits three bytes, and the first that does not (B8.13, B8.12). -/
theorem witness_BcdStoresDigits : ({ State.reset with i := 0xFFE } : State).i.toNat + 2 > 0xFFF ∧
    Memory.wf ({ State.reset with i := 0xFFD } : State).mem ∧ ({ State.reset with i := 0xFFD } : State).i.toNat + 2 ≤ 0xFFF := by
  decide
/-- The last I that fits, and the first that does not, for two registers and for one (B8.18, B8.19, B8.23). -/
theorem witness_BulkStore_and_BulkLoad :
    ({ State.reset with i := 0xFFF } : State).i.toNat + (0x1#4).toNat > 0xFFF ∧
    ({ State.reset with i := 0x1000 } : State).i.toNat + (0x0#4).toNat > 0xFFF ∧
    (Memory.wf ({ State.reset with i := 0xFFF } : State).mem ∧
      ({ State.reset with i := 0xFFF } : State).i.toNat + (0x0#4).toNat ≤ 0xFFF) ∧
    (0x0#4).toNat ≤ (0x0#4).toNat := by decide

theorem witness_ErrorsArePrecise : ∃ t, exec .ret State.reset = .next t ∧
    t.lastResult = some (.err (.callStackUnderflow 0x1FE)) := ⟨_, rfl, rfl⟩
theorem witness_FaultRecordKeepsFirstError :
    (stepped State.reset).faultRecord = some (.unsupportedInstruction 0x0000 0x200) := by decide
/-- A step that answers an error with an empty record (the fault of C5), and one that answers Ok. -/
theorem witness_FaultRecordTakesError :
    (∃ t, step (fetching 0x5121 State.reset) = .next t ∧ (fetching 0x5121 State.reset).faultRecord = none ∧
      t.lastResult = some (.err (.notWellFormedInstruction 0x5121 0x200))) ∧
    ∃ t, step (fetching 0x6005 State.reset) = .next t ∧ t.lastResult = some .ok := ⟨⟨_, rfl, rfl, rfl⟩, ⟨_, rfl, rfl⟩⟩
theorem witness_FaultedRunNeverSuccessful : ∃ t, runTransactions ([.tick] ++ [.step]) State.reset = .next t ∧
    t.lastResult = some (.err (.unsupportedInstruction 0x0000 0x200)) := ⟨_, rfl, rfl⟩
/-- The last pixel of the framebuffer, and the first row index out of range. -/
theorem witness_FrameExportIsRowMajor : (31 < 32 ∧ 63 < 64 ∧ 31 * 64 + 63 < 2048) ∧ 32 ≥ 32 := by decide

/-- The longest image that fits, and an address in each range of the layout. -/
theorem witness_ConstructionLaysOutMemory :
    let c := defaultConstruction (List.replicate 3584 0xAA) { shiftQuirk := true, loadStoreQuirk := true }
    (c.image = .bytes (List.replicate 3584 0xAA) ∧ (List.replicate 3584 0xAA#8).length ≤ 3584 ∧ c.resetPolicy = .zero) ∧
    79 < 80 ∧ (80 ≤ 511 ∧ 511 < 0x200) ∧ 3583 < (List.replicate 3584 0xAA#8).length :=
  ⟨⟨rfl, by rw [List.length_replicate], rfl⟩, by decide, by decide, by rw [List.length_replicate]; decide⟩
/-- A construction whose policy draws V0 = 0x11. -/
theorem witness_ConstructionLaysOutMemory_draw :
    ∃ d, ({ defaultConstruction [0x60, 0x05] State.reset.cfg with
        resetPolicy := .draw { v := State.reset.v.set 0 0x11, i := 0x123, dt := 1, st := 2, fb := State.reset.fb,
                               keys := State.reset.keys } } : Construction).resetPolicy = .draw d ∧ d.v[0] = 0x11 :=
  ⟨_, rfl, by decide⟩
/-- The range above the image is inhabited for a shorter image. -/
theorem witness_ConstructionLaysOutMemory_tail : 0x200 + ([0x60, 0x05] : List Byte).length ≤ 0xFFF ∧ 0xFFF ≤ 0xFFF := by
  decide
/-- An image that cannot be read, one a byte too long, the longest, and the empty one. -/
theorem witness_ConstructionOutcomes :
    ({ defaultConstruction [] State.reset.cfg with image := .unreadable "no file" } : Construction).image =
      .unreadable "no file" ∧
    (List.replicate 3585 0x00#8).length > 3584 ∧ (List.replicate 3584 0x00#8).length ≤ 3584 ∧
    (defaultConstruction [] State.reset.cfg).image = .bytes [] ∧
    construct (defaultConstruction [] State.reset.cfg) = .next State.reset :=
  ⟨rfl, by rw [List.length_replicate]; decide, by rw [List.length_replicate], rfl, rfl⟩

/-- A state no reset gives, with the invariant, and its next state. -/
theorem witness_StepKeepsInvariant :
    (fetching 0x2400 { State.reset with stack := List.replicate 15 0x202 }).Inv ∧
    ∃ t, step (fetching 0x2400 { State.reset with stack := List.replicate 15 0x202 }) = .next t := ⟨by decide, _, rfl⟩
/-- At the bounds of PC and of a return address. -/
theorem witness_StepKeepsPcBounded : ({ State.reset with pc := 0x10FE, stack := [0x1000] } : State).PcBounded ∧
    ∃ t, step { State.reset with pc := 0x10FE, stack := [0x1000] } = .next t :=
  ⟨⟨by decide, by simp⟩, (step_ends _).imp fun _ h => h.1⟩
theorem witness_RunsFromConstructionKeepInvariants :
    construct (defaultConstruction [] State.reset.cfg) = .next State.reset ∧
    ∃ t, runTransactions [.step, .tick, .writeKeys [(0x3, true)], .step] State.reset = .next t := ⟨rfl, _, rfl⟩

theorem witness_RegisterWriters : ∃ t, exec (.addReg 0x1 0x2) State.reset = .next t ∧
    writesReg (.addReg 0x1 0x2) 0x3 = false := ⟨_, rfl, rfl⟩
theorem witness_TimersChangeOnlyBySetting :
    (∃ t, transact .step (fetching 0xF315 (withV [(0x3, 0x3C)] State.reset)) = .next t ∧ t.dt ≠ State.reset.dt) ∧
    (∃ t, transact .step (fetching 0xF318 (withV [(0x3, 0x3C)] State.reset)) = .next t ∧ t.st ≠ State.reset.st) ∧
    (∃ t, transact .tick State.reset = .next t) ∧ (∃ t, transact (.writeKeys [(0x0, true)]) State.reset = .next t) ∧
    ∃ t, transact (.read .frame) State.reset = .next t :=
  ⟨⟨_, rfl, by decide⟩, ⟨_, rfl, by decide⟩, ⟨_, rfl⟩, ⟨_, rfl⟩, ⟨_, rfl⟩⟩
theorem witness_KeysAndConfigurationConstant : (∃ t, transact .tick State.reset = .next t) ∧
    ∀ updates, Transaction.tick ≠ .writeKeys updates := ⟨⟨_, rfl⟩, fun _ h => by cases h⟩
/-- A changed framebuffer, a changed I and a changed stack. -/
theorem witness_FrameIndexStackWriters :
    (∃ t, exec .cls (withPixels [(5, 5)] State.reset) = .next t ∧ t.fb ≠ (withPixels [(5, 5)] State.reset).fb) ∧
    (∃ t, exec (.storeRegs 0x3) State.reset = .next t ∧ t.i ≠ State.reset.i) ∧
    ∃ t, exec (.call 0x400) State.reset = .next t ∧ t.stack ≠ State.reset.stack :=
  ⟨⟨_, rfl, by decide⟩, ⟨_, rfl, by decide⟩, ⟨_, rfl, by decide⟩⟩
theorem witness_MemoryWriters : ∃ t,
    exec (.ldB 0x0) (withV [(0x0, 0xFE)] { State.reset with i := 0xFFD }) = .next t ∧ Memory.wf State.reset.mem ∧
    Memory.read t.mem 0xFFF ≠ Memory.read State.reset.mem 0xFFF := ⟨_, rfl, by decide, by decide⟩
theorem witness_OnlyRandomDraws : (∃ t, exec .cls State.reset = .next t) ∧ ∀ x kk, Instr.cls ≠ .rnd x kk :=
  ⟨⟨_, rfl⟩, fun _ _ h => by cases h⟩
/-- An instruction that does not set ST, and one that does. -/
theorem witness_SoundTimerNeverRead : (∃ t, exec .cls State.reset = .next t) ∧ (∀ x, Instr.cls ≠ .ldStVx x) ∧
    ∃ x, Instr.ldStVx 0x3 = .ldStVx x := ⟨⟨_, rfl⟩, (fun _ h => by cases h), _, rfl⟩
theorem witness_KeysReadOnlyByKeyInstructions : readsKeys (.ldVxDt 0x3) = false ∧
    ∃ t, exec (.ldVxDt 0x3) State.reset = .next t := ⟨rfl, _, rfl⟩
/-- The byte at PC, the byte after it and a byte elsewhere, with PC at its bound. -/
theorem witness_StoreSeenByNextFetch : Memory.wf ({ State.reset with pc := 0xFFE } : State).mem ∧
    0xFFF ≤ 0xFFF ∧ ({ State.reset with pc := 0xFFE } : State).pc.toNat ≤ 0xFFE ∧
    0xFFF = ({ State.reset with pc := 0xFFE } : State).pc.toNat + 1 := by decide
/-- Two memories written in different orders that read alike. -/
theorem witness_CanonicalMemoryExtensional :
    Memory.wf (Memory.write (Memory.write [] 0x300 1) 0x301 2) ∧ Memory.wf (Memory.write (Memory.write [] 0x301 2) 0x300 1) ∧
    ∀ a, Memory.read (Memory.write (Memory.write [] 0x300 1) 0x301 2) a =
      Memory.read (Memory.write (Memory.write [] 0x301 2) 0x300 1) a :=
  ⟨by decide, by decide, fun _ => rfl⟩

/-- A key named twice, its last value, and a key not named. -/
theorem witness_KeyWriteSetsNamedFlags :
    [((0x3 : Nibble), true), (0xF, true), (0x3, false)] = [(0x3, true), (0xF, true)] ++ (0x3, false) :: [] ∧
    (∀ p ∈ ([] : List (Nibble × Bool)), p.1 ≠ 0x3) ∧
    ∀ p ∈ [((0x3 : Nibble), true), (0xF, true), (0x3, false)], p.1 ≠ 0x0 := by decide

end Sys2Proof.Tests
end

section
/-! SUPPORT. Decode against the word's number: what a word that decodes is the encoding of, and which words do not
decode (30_encoding.md R84, R85, R92, R94). -/

namespace Sys2Proof

open Sys2Proof.Machine

/-! ### Formats -/

/-- Family and nnn taken from three nibbles are the word of the four nibbles. -/
theorem Word.ofNNN_fieldNNN (f x y n : Nibble) : Word.ofNNN f (fieldNNN x y n) = Word.ofNibbles f x y n := by
  apply BitVec.eq_of_toNat_eq
  rw [Word.toNat_ofNNN, toNat_fieldNNN, Word.toNat_ofNibbles]; omega

/-- Family, x and kk taken from two nibbles are the word of the four nibbles. -/
theorem Word.ofXKK_fieldKK (f x y n : Nibble) : Word.ofXKK f x (fieldKK y n) = Word.ofNibbles f x y n := by
  apply BitVec.eq_of_toNat_eq
  rw [Word.toNat_ofXKK, toNat_fieldKK, Word.toNat_ofNibbles]; omega

@[simp] theorem Word.toNat_ofNNN_div (f : Nibble) (nnn : Addr12) : (Word.ofNNN f nnn).toNat / 0x1000 = f.toNat := by
  have := nnn.isLt
  rw [Word.toNat_ofNNN]; omega

@[simp] theorem Word.toNat_ofXKK_div (f x : Nibble) (kk : Byte) : (Word.ofXKK f x kk).toNat / 0x1000 = f.toNat := by
  have := x.isLt; have := kk.isLt
  rw [Word.toNat_ofXKK]; omega

@[simp] theorem Word.toNat_ofXKK_div_mod (f x : Nibble) (kk : Byte) :
    (Word.ofXKK f x kk).toNat / 0x100 % 0x10 = x.toNat := by
  have := x.isLt; have := kk.isLt
  rw [Word.toNat_ofXKK]; omega

@[simp] theorem Word.toNat_ofXKK_mod (f x : Nibble) (kk : Byte) : (Word.ofXKK f x kk).toNat % 0x100 = kk.toNat := by
  have := kk.isLt
  rw [Word.toNat_ofXKK]; omega

@[simp] theorem Word.toNat_ofNibbles_div (f x y n : Nibble) : (Word.ofNibbles f x y n).toNat / 0x1000 = f.toNat := by
  have := x.isLt; have := y.isLt; have := n.isLt
  rw [Word.toNat_ofNibbles]; omega

@[simp] theorem Word.toNat_ofNibbles_mod_0x100 (f x y n : Nibble) :
    (Word.ofNibbles f x y n).toNat % 0x100 = (fieldKK y n).toNat := by
  rw [← Word.ofXKK_fieldKK, Word.toNat_ofXKK_mod]

@[simp] theorem Word.toNat_ofNibbles_mod (f x y n : Nibble) : (Word.ofNibbles f x y n).toNat % 0x10 = n.toNat := by
  have := n.isLt
  rw [Word.toNat_ofNibbles]; omega

/-! ### Words that decode -/

/-- A bit vector with a known number is that literal. -/
theorem eq_ofNat_of_toNat_eq {m k : Nat} {b : BitVec m} (h : b.toNat = k) : b = BitVec.ofNat m k := by
  rw [← h, BitVec.ofNat_toNat, BitVec.setWidth_eq]

/-- Family 0 decodes to a well-formed instruction that encodes back. -/
theorem encode_decodeFamily0 (nnn : Addr12) :
    encode (decodeFamily0 nnn) = Word.ofNNN 0x0#4 nnn ∧ (decodeFamily0 nnn).wellFormed = true := by
  unfold decodeFamily0
  split
  · next h => subst h; decide
  split
  · next h => subst h; decide
  · next h0 h1 => simp [encode, Instr.wellFormed, h0, h1]

/-- Family 8 decodes to a well-formed instruction that encodes back. -/
theorem encode_decodeFamily8 {x y n : Nibble} {i : Instr} (h : decodeFamily8 x y n = .ok i) :
    encode i = Word.ofNibbles 0x8#4 x y n ∧ i.wellFormed = true := by
  unfold decodeFamily8 at h
  split at h <;> cases h
  all_goals next hn => rw [eq_ofNat_of_toNat_eq hn]; exact ⟨rfl, rfl⟩

/-- Family E decodes to a well-formed instruction that encodes back. -/
theorem encode_decodeFamilyE {x : Nibble} {kk : Byte} {i : Instr} (h : decodeFamilyE x kk = .ok i) :
    encode i = Word.ofXKK 0xE#4 x kk ∧ i.wellFormed = true := by
  unfold decodeFamilyE at h
  split at h <;> cases h
  all_goals next hk => rw [eq_ofNat_of_toNat_eq hk]; exact ⟨rfl, rfl⟩

/-- Family F decodes to a well-formed instruction that encodes back. -/
theorem encode_decodeFamilyF {x : Nibble} {kk : Byte} {i : Instr} (h : decodeFamilyF x kk = .ok i) :
    encode i = Word.ofXKK 0xF#4 x kk ∧ i.wellFormed = true := by
  unfold decodeFamilyF at h
  split at h <;> cases h
  all_goals next hk => rw [eq_ofNat_of_toNat_eq hk]; exact ⟨rfl, rfl⟩

/-- Nibbles that decode are the word of the decoded instruction, family by family (R84). -/
theorem encode_decodeNibbles {f x y n : Nibble} {i : Instr} (h : decodeNibbles f x y n = .ok i) :
    encode i = Word.ofNibbles f x y n ∧ i.wellFormed = true := by
  unfold decodeNibbles at h
  split at h
  case h_1 hf =>
    cases h
    rw [eq_ofNat_of_toNat_eq hf, ← Word.ofNNN_fieldNNN]
    exact encode_decodeFamily0 _
  case h_2 hf | h_3 hf | h_11 hf | h_12 hf =>
    cases h
    rw [eq_ofNat_of_toNat_eq hf]
    exact ⟨Word.ofNNN_fieldNNN _ x y n, rfl⟩
  case h_4 hf | h_5 hf | h_7 hf | h_8 hf | h_13 hf =>
    cases h
    rw [eq_ofNat_of_toNat_eq hf]
    exact ⟨Word.ofXKK_fieldKK _ x y n, rfl⟩
  case h_6 hf | h_10 hf =>
    split at h <;> cases h
    next hn => rw [eq_ofNat_of_toNat_eq hf, hn]; exact ⟨rfl, rfl⟩
  case h_9 hf =>
    rw [eq_ofNat_of_toNat_eq hf]
    exact encode_decodeFamily8 h
  case h_14 hf =>
    cases h
    rw [eq_ofNat_of_toNat_eq hf]
    exact ⟨rfl, rfl⟩
  case h_15 hf =>
    rw [eq_ofNat_of_toNat_eq hf, ← Word.ofXKK_fieldKK]
    exact encode_decodeFamilyE h
  case h_16 =>
    have hf : f.toNat = 15 := by have := f.isLt; simp only [imp_false] at *; omega
    rw [eq_ofNat_of_toNat_eq hf, ← Word.ofXKK_fieldKK]
    exact encode_decodeFamilyF h

/-- A decoded word is the encoding of its instruction, which is well formed (R94). -/
theorem encode_of_decode {w : Word} {i : Instr} (h : decode w = .ok i) : encode i = w ∧ i.wellFormed = true := by
  rw [← Word.ofNibbles_fields w]
  exact encode_decodeNibbles h

/-! ### Words that do not decode -/

/-- Family 8 rejects the sub-opcodes without a row (R92). -/
theorem decodeFamily8_eq_error (x y n : Nibble) :
    decodeFamily8 x y n = .error .notWellFormed ↔ n.toNat ∈ [0x8, 0x9, 0xA, 0xB, 0xC, 0xD, 0xF] := by
  unfold decodeFamily8
  split
  case h_10 =>
    have := n.isLt
    simp only [imp_false] at *
    simp only [List.mem_cons, List.not_mem_nil, true_iff]
    omega
  all_goals simp [*]

/-- Family E rejects every sub-opcode without a row (R92). -/
theorem decodeFamilyE_eq_error (x : Nibble) (kk : Byte) :
    decodeFamilyE x kk = .error .notWellFormed ↔ kk.toNat ∉ [0x9E, 0xA1] := by
  unfold decodeFamilyE
  split
  case h_3 => simp only [imp_false] at *; simp [*]
  all_goals simp [*]

/-- Family F rejects every sub-opcode without a row (R92). -/
theorem decodeFamilyF_eq_error (x : Nibble) (kk : Byte) :
    decodeFamilyF x kk = .error .notWellFormed ↔
      kk.toNat ∉ [0x07, 0x0A, 0x15, 0x18, 0x1E, 0x29, 0x33, 0x55, 0x65] := by
  unfold decodeFamilyF
  split
  case h_10 => simp only [imp_false] at *; simp [*]
  all_goals simp [*]

/-- Nibbles are rejected when their word is on the list of R92, family by family. -/
theorem decodeNibbles_eq_error (f x y n : Nibble) :
    decodeNibbles f x y n = .error .notWellFormed ↔ NotWellFormedWord (Word.ofNibbles f x y n).toNat = true := by
  have hn : n = 0#4 ↔ n.toNat = 0 := BitVec.toNat_eq
  unfold decodeNibbles
  simp only [NotWellFormedWord, Word.toNat_ofNibbles_div, Word.toNat_ofNibbles_mod, Word.toNat_ofNibbles_mod_0x100]
  split
  case h_16 =>
    have hf : f.toNat = 15 := by have := f.isLt; simp only [imp_false] at *; omega
    simp [hf, decodeFamilyF_eq_error]
  all_goals simp [*, decodeFamily8_eq_error, decodeFamilyE_eq_error]

/-- The rejected words are those of the list of R92. -/
theorem decode_eq_error (w : Word) : decode w = .error .notWellFormed ↔ NotWellFormedWord w.toNat = true := by
  rw [← Word.ofNibbles_fields w, decode_ofNibbles]
  exact decodeNibbles_eq_error _ _ _ _

end Sys2Proof
end

section
/-! SUPPORT. Error priority (60_exceptions.md R210): the error an instruction's own meaning raises, and the order of
the checks of one step. -/

namespace Sys2Proof.Machine

/-! ### What the encoding says of the instruction -/

/-- How many bytes at I the instruction accesses as data (20_memory.md R67). -/
def dataCount : Instr → Nat
  | .drw _ _ n => n.toNat
  | .ldB _ => 3
  | .storeRegs x | .loadRegs x => x.toNat + 1
  | _ => 0

/-- The word's data access is the instruction's. -/
@[simp] theorem dataBytes_encode (i : Instr) : dataBytes (encode i).toNat = dataCount i := by
  cases i <;> simp [dataBytes, encode, dataCount]

/-- Family 2 is CALL. -/
theorem encode_family_eq_call (i : Instr) : (encode i).toNat / 0x1000 = 2 ↔ ∃ nnn, i = .call nnn := by
  cases i <;> simp [encode]

/-- The unsupported words are those of SYS (R93). -/
theorem unsupportedWord_encode {i : Instr} (hi : i.wellFormed = true) :
    UnsupportedWord (encode i).toNat = true ↔ ∃ nnn, i = .sys nnn := by
  cases i with
  | sys nnn =>
    have hne : nnn.toNat ≠ 0x0E0 ∧ nnn.toNat ≠ 0x0EE := by simpa [Instr.wellFormed, BitVec.toNat_eq] using hi
    have hw : (encode (.sys nnn)).toNat = nnn.toNat := by simp [encode, Word.toNat_ofNNN]
    have hfam : nnn.toNat / 0x1000 = 0 := Nat.div_eq_of_lt nnn.isLt
    simpa [UnsupportedWord, hw, hfam] using hne
  | _ => simp [encode, UnsupportedWord]

/-- 0x00EE is RET alone (R85). -/
theorem encode_eq_ret {i : Instr} (hi : decode (encode i) = .ok i) : (encode i).toNat = 0x00EE ↔ i = .ret := by
  constructor
  · intro h
    have hw : encode i = 0x00EE#16 := eq_ofNat_of_toNat_eq h
    rw [hw] at hi
    exact (Except.ok.inj hi).symm
  · rintro rfl; rfl

/-! ### The instruction's own error -/

@[simp] theorem State.stackFull_advancePc (s : State) : s.advancePc.stackFull = s.stackFull := rfl

/-- The fault of n bytes at I, or none when they all exist or there are none (20_memory.md R68). -/
def State.dataFault (s : State) (n : Nat) : Option StepError :=
  if n > 0 ∧ s.i.toNat + n - 1 > 0xFFF then some (.memoryAddressFault s.i n) else none

theorem State.dataFault_of_fits {s : State} {n : Nat} (h : n = 0 ∨ s.i.toNat + n ≤ 0x1000) : s.dataFault n = none :=
  if_neg (by omega)

theorem State.dataFault_of_outside {s : State} {n : Nat} (hn : n > 0) (h : s.i.toNat + n > 0x1000) :
    s.dataFault n = some (.memoryAddressFault s.i n) :=
  if_pos (by omega)

/-- The error an instruction's own condition gives while it executes in s, with PC two past its address. -/
def ownError (s : State) : Instr → Option StepError
  | .sys nnn => some (.unsupportedInstruction (encode (.sys nnn)) s.fetchAddress)
  | .ret => if s.stack = [] then some (.callStackUnderflow s.fetchAddress) else none
  | .call _ => if s.stackFull = true then some (.callStackOverflow s.fetchAddress) else none
  | i => s.dataFault (dataCount i)

/-- The result is a next state whose answer is Ok, or the error given. -/
def Answers (r : Result) (e : Option StepError) : Prop := ∃ t, r = .next t ∧ t.lastResult = some (e.elim .ok .err)

theorem Answers.of_complete (u : State) : Answers (complete u) none := ⟨_, rfl, rfl⟩

theorem Answers.of_raise (e : StepError) (u : State) : Answers (raise e u) (some e) := ⟨_, rfl, rfl⟩

/-- A meaning that accesses n > 0 bytes at I, and faults when one does not exist, answers the data fault or Ok. -/
theorem Answers.of_access {r : Result} {s u : State} {n : Nat} (hn : n > 0)
    (h : (s.i.toNat + n > 0x1000 ∧ r = raise (.memoryAddressFault s.i n) s) ∨
      (s.i.toNat + n ≤ 0x1000 ∧ r = complete u)) : Answers r (s.dataFault n) := by
  rcases h with ⟨hs, rfl⟩ | ⟨hs, rfl⟩
  · rw [State.dataFault_of_outside hn hs]; exact .of_raise _ s
  · rw [State.dataFault_of_fits (.inr hs)]; exact .of_complete u

/-- Every meaning answers Ok or its own error, in every state. -/
theorem exec_answers_ownError (i : Instr) (s : State) : Answers (exec i s) (ownError s i) := by
  cases i with
  | sys nnn => exact .of_raise _ s
  | ret =>
    rcases execRet_cases s with ⟨hs, h⟩ | ⟨rest, r, hs, h⟩ <;> rw [h]
    · rw [ownError, if_pos hs]; exact .of_raise _ s
    · rw [ownError, if_neg (by simp [hs])]; exact .of_complete _
  | call nnn =>
    rcases execCall_cases nnn s with ⟨hs, h⟩ | ⟨hs, h⟩ <;> rw [h]
    · rw [ownError, if_pos hs]; exact .of_raise _ s
    · rw [ownError, if_neg (by simp [hs])]; exact .of_complete _
  | drw x y n =>
    change Answers _ (s.dataFault n.toNat)
    rcases execDrw_cases x y n s with ⟨hn, hs, h⟩ | ⟨hs, h⟩ <;> rw [h]
    · rw [State.dataFault_of_outside hn hs]; exact .of_raise _ s
    · rw [State.dataFault_of_fits hs]; exact .of_complete _
  | ldB x => exact .of_access (Nat.succ_pos _) (execLdB_cases x s)
  | storeRegs x => exact .of_access (Nat.succ_pos _) (execStoreRegs_cases x s)
  | loadRegs x => exact .of_access (Nat.succ_pos _) (execLoadRegs_cases x s)
  | ldVxK x =>
    rcases execLdVxK_cases x s with ⟨k, -, -, h⟩ | ⟨-, h⟩ <;> rw [h] <;> exact .of_complete _
  | _ => exact .of_complete _

/-! ### The order of the checks -/

/-- When the word at PC decodes, the expected error is the instruction's own. -/
theorem expectedError_of_decode {s : State} {w : Word} {i : Instr} (hpc : s.pc.toNat ≤ 0xFFE)
    (hw : w.toNat = s.wordNumber) (hd : decode w = .ok i) : s.expectedError = ownError s.advancePc i := by
  obtain ⟨rfl, hi⟩ := encode_of_decode hd
  have hwf : ¬ NotWellFormedWord (encode i).toNat = true := by simp [← decode_eq_error, hd]
  rw [State.expectedError, if_neg (by omega), ← hw, if_neg hwf]
  simp only [unsupportedWord_encode hi, encode_eq_ret hd, encode_family_eq_call, dataBytes_encode]
  cases i with
  | sys nnn => simp [ownError]
  | ret => simp [ownError, dataCount]
  | call nnn => simp [ownError, dataCount]
  | _ => simp [ownError, State.dataFault]

/-- Every step answers Ok or the expected error. -/
theorem step_answers_expectedError (s : State) : Answers (step s) s.expectedError := by
  rcases step_cases s with ⟨hpc, h⟩ | ⟨w, hpc, hw, ⟨hd, h⟩ | ⟨i, hd, h⟩⟩ <;> rw [h]
  · rw [State.expectedError, if_pos hpc]
    exact .of_raise _ s
  · have hwf := (decode_eq_error w).1 hd
    rw [State.expectedError, if_neg (by omega), ← hw, if_pos hwf, BitVec.ofNat_toNat, BitVec.setWidth_eq]
    exact .of_raise _ s.advancePc
  · rw [expectedError_of_decode hpc hw hd]
    exact exec_answers_ownError i s.advancePc

/-- Settles O9: the step runs the checks in the order of `expectedError`, and each meaning answers its own error. -/
theorem stepAnswersExpectedError : Obligations.StepAnswersExpectedError := by
  unfold Obligations.StepAnswersExpectedError
  intro s
  obtain ⟨t, ht, hr⟩ := step_answers_expectedError s
  refine ⟨t, ht, hr.trans ?_⟩
  cases s.expectedError <;> rfl

end Sys2Proof.Machine
end

section
/-! SUPPORT. Key writes (10_state.md R47): each flag after a write, and a write that reaches any flags. -/

namespace Sys2Proof.Machine

@[simp] theorem State.getElem?_keys_writeKey (s : State) (k j : Nibble) (held : Bool) :
    (s.writeKey k held).keys[j.toNat]? = if j = k then some held else s.keys[j.toNat]? := by
  by_cases h : j = k
  · subst h; simp [State.writeKey]
  · have hk : k.toNat ≠ j.toNat := fun e => h (BitVec.eq_of_toNat_eq e.symm)
    simp [State.writeKey, h, hk]

/-- A key write in two parts. -/
theorem State.writeKeys_append (before after : List (Nibble × Bool)) (s : State) :
    s.writeKeys (before ++ after) = (s.writeKeys before).writeKeys after := by
  induction before generalizing s with
  | nil => rfl
  | cons p rest ih => exact ih _

/-- A key write changes K alone, and never fails. -/
theorem transact_writeKeys (updates : List (Nibble × Bool)) (s : State) :
    transact (.writeKeys updates) s = .next { s with keys := (s.writeKeys updates).keys } :=
  congrArg _ (State.writeKeys_eq updates s)

/-- A flag that no pair names is unchanged. -/
theorem State.getElem?_writeKeys_of_not_named {updates : List (Nibble × Bool)} {k : Nibble}
    (h : ∀ p ∈ updates, p.1 ≠ k) (s : State) : (s.writeKeys updates).keys[k.toNat]? = s.keys[k.toNat]? := by
  induction updates generalizing s with
  | nil => rfl
  | cons p rest ih =>
    obtain ⟨hp, hrest⟩ := List.forall_mem_cons.1 h
    rw [State.writeKeys, ih hrest, State.getElem?_keys_writeKey, if_neg hp.symm]

/-- A flag has the value of the last pair that names it (log 12). -/
theorem State.getElem?_writeKeys_of_last (before : List (Nibble × Bool)) {after : List (Nibble × Bool)} {k : Nibble}
    (held : Bool) (h : ∀ p ∈ after, p.1 ≠ k) (s : State) :
    (s.writeKeys (before ++ (k, held) :: after)).keys[k.toNat]? = some held := by
  rw [State.writeKeys_append, State.writeKeys, State.getElem?_writeKeys_of_not_named h,
    State.getElem?_keys_writeKey, if_pos rfl]

/-- Settles O60: what comes after the last pair that names a flag leaves the flag alone. -/
theorem keyWriteSetsNamedFlags : Obligations.KeyWriteSetsNamedFlags := by
  unfold Obligations.KeyWriteSetsNamedFlags
  intro s updates
  refine ⟨(s.writeKeys updates).keys, transact_writeKeys updates s, ?_, ?_⟩
  · rintro before after k held rfl hafter
    exact State.getElem?_writeKeys_of_last before held hafter s
  · exact fun k hk => State.getElem?_writeKeys_of_not_named hk s

/-! ### Reaching a target -/

/-- The updates that turn one setting of the flags into another: a pair for each flag that differs. -/
def keyDifferences (old new : Vector Bool 16) : List (Nibble × Bool) :=
  ((List.finRange 16).filter fun k => old[k] != new[k]).map fun k => (BitVec.ofFin k, new[k])

/-- A pair stands in the differences when it has the new value of its flag and not the old one. -/
theorem mem_keyDifferences {old new : Vector Bool 16} {p : Nibble × Bool} :
    p ∈ keyDifferences old new ↔ new[p.1.toNat]? = some p.2 ∧ old[p.1.toNat]? ≠ some p.2 := by
  obtain ⟨⟨k⟩, held⟩ := p
  constructor
  · intro h
    obtain ⟨j, hj, he⟩ := List.mem_map.1 h
    cases he
    simpa using hj
  · rintro ⟨hnew, hold⟩
    obtain rfl : new[k] = held := by simpa using hnew
    exact List.mem_map.2 ⟨k, by simpa using hold, rfl⟩

/-- A key write all of whose pairs agree with a target brings each flag it names to the target, and keeps each flag
that is there. -/
theorem State.getElem?_writeKeys_of_agree {updates : List (Nibble × Bool)} {target : Vector Bool 16}
    (hvalue : ∀ p ∈ updates, target[p.1.toNat]? = some p.2) {s : State} {k : Nibble}
    (hk : s.keys[k.toNat]? = target[k.toNat]? ∨ ∃ p ∈ updates, p.1 = k) :
    (s.writeKeys updates).keys[k.toNat]? = target[k.toNat]? := by
  induction updates generalizing s with
  | nil => simpa [State.writeKeys] using hk
  | cons p rest ih =>
    obtain ⟨hp, hrest⟩ := List.forall_mem_cons.1 hvalue
    refine ih hrest ?_
    rw [State.getElem?_keys_writeKey]
    by_cases h : k = p.1
    · exact .inl (by rw [if_pos h, h, hp])
    · rw [if_neg h]
      simpa [Ne.symm h] using hk

/-- Writing the differences reaches the target. -/
theorem State.keys_writeKeys_keyDifferences (s : State) (target : Vector Bool 16) :
    (s.writeKeys (keyDifferences s.keys target)).keys = target := by
  apply Vector.ext
  intro k hk
  have hcover : s.keys[k]? = target[k]? ∨ ∃ p ∈ keyDifferences s.keys target, p.1 = BitVec.ofFin ⟨k, hk⟩ := by
    refine or_iff_not_imp_left.2 fun hne => ⟨(BitVec.ofFin ⟨k, hk⟩, target[k]), mem_keyDifferences.2 ?_, rfl⟩
    simpa [hk] using hne
  have h := State.getElem?_writeKeys_of_agree (k := BitVec.ofFin ⟨k, hk⟩)
    (fun p hp => (mem_keyDifferences.1 hp).1) hcover
  simpa [hk] using h

/-- Settles O42: the write that names each flag that differs, with its target value. -/
theorem keyWriteReachesAnyFlags : Obligations.KeyWriteReachesAnyFlags := by
  unfold Obligations.KeyWriteReachesAnyFlags
  intro s keys
  refine ⟨keyDifferences s.keys keys, ?_, fun p hp => (mem_keyDifferences.1 hp).2⟩
  rw [transact_writeKeys, State.keys_writeKeys_keyDifferences]

end Sys2Proof.Machine
end

section
/-! SUPPORT. State reads (10_state.md R34, R49, R53): the frame as rows of 64 pixel bytes. -/

namespace Sys2Proof.Machine

/-- The frame cells are the rows of pixel bytes, one after the other (10_state.md R34). -/
theorem Framebuffer.frameCells_eq_flatten (fb : Framebuffer) :
    Framebuffer.frameCells fb = (fb.map (·.map pixelByte)).flatten.toList := by
  simp [Framebuffer.frameCells, List.flatMap_def, Vector.flatten, Vector.toList, Function.comp_def]

theorem Framebuffer.length_frameCells (fb : Framebuffer) : (Framebuffer.frameCells fb).length = 2048 := by
  rw [Framebuffer.frameCells_eq_flatten, Vector.length_toList]

/-- A pixel on the screen is its array cell (R33). -/
theorem Framebuffer.pixel_eq_getElem (fb : Framebuffer) {y x : Nat} (hy : y < 32) (hx : x < 64) :
    Framebuffer.pixel fb y x = fb[y][x] :=
  dif_pos ⟨hy, hx⟩

/-- Cell y * 64 + x of the frame is the byte of pixel (x, y). -/
theorem Framebuffer.getElem?_frameCells (fb : Framebuffer) {y x : Nat} (hy : y < 32) (hx : x < 64) :
    (Framebuffer.frameCells fb)[y * 64 + x]? = some (pixelByte (Framebuffer.pixel fb y x)) := by
  have hrow : (y * 64 + x) / 64 = y := by omega
  have hcol : (y * 64 + x) % 64 = x := by omega
  rw [Framebuffer.frameCells_eq_flatten, Vector.getElem?_toList, Vector.getElem?_eq_getElem (by omega),
    Vector.getElem_flatten]
  simp only [hrow, hcol, Vector.getElem_map, Framebuffer.pixel_eq_getElem fb hy hx]

/-- Settles O43: the frame is the rows joined, so cell y * 64 + x lies in row y at column x; every other read is its
field. -/
theorem frameExportIsRowMajor : Obligations.FrameExportIsRowMajor := by
  unfold Obligations.FrameExportIsRowMajor
  intro s
  refine ⟨⟨_, rfl, Framebuffer.length_frameCells s.fb, fun _ _ => Framebuffer.getElem?_frameCells s.fb⟩,
    ?_, ?_, rfl, rfl, rfl, fun _ => rfl⟩
  · intro y hy
    refine ⟨s.fb[y], ?_, fun x hx => ?_⟩
    · simp only [State.answer, Framebuffer.row, Vector.getElem?_eq_getElem hy]
    · rw [Vector.getElem?_eq_getElem hx, Framebuffer.pixel_eq_getElem s.fb hy hx]
  · intro y hy
    simp only [State.answer, Framebuffer.row, Vector.getElem?_eq_none hy]

end Sys2Proof.Machine
end

section
/-! SUPPORT. Frame rules, one per state operation, and the frame of every instruction: the pieces of state it may
change (10_state.md R22, R28 to R35). -/

namespace Sys2Proof.Machine

/-! ### Frame rules -/

section
variable {τ : Touch} {s u : State}

theorem Keeps.setResult (h : Keeps τ s u) (r : StepResult) : Keeps τ s (u.setResult r) :=
  h.result _ _

theorem Keeps.recordFault (h : Keeps τ s u) (e : StepError) : Keeps τ s (u.recordFault e) :=
  h.result _ _

theorem Keeps.setPc (h : Keeps τ s u) (hτ : τ.pc) (a : Word) : Keeps τ s (u.setPc a) :=
  { h with pc := absurd hτ }

theorem Keeps.skipIf (h : Keeps τ s u) (hτ : τ.pc) (c : Bool) : Keeps τ s (u.skipIf c) := by
  cases c
  · exact h
  · exact h.setPc hτ _

theorem Keeps.setStack (h : Keeps τ s u) (hτ : τ.stack) (l : List Word) : Keeps τ s { u with stack := l } :=
  { h with stack := absurd hτ }

theorem Keeps.setI (h : Keeps τ s u) (hτ : τ.index) (a : Word) : Keeps τ s (u.setI a) :=
  { h with index := absurd hτ }

theorem Keeps.advanceIndex (h : Keeps τ s u) (hτ : s.cfg.loadStoreQuirk = false → τ.index) (x : RegIx) :
    Keeps τ s (u.advanceIndex x) := by
  rw [State.advanceIndex, h.cfg]
  split
  case isTrue => exact h
  case isFalse hq => exact h.setI (hτ (Bool.eq_false_iff.2 hq)) _

theorem Keeps.writeV (h : Keeps τ s u) {x : RegIx} (hτ : τ.regs x) (b : Byte) : Keeps τ s (u.writeV x b) :=
  { h with
    regs := fun r hr => by
      rw [State.readV_writeV, if_neg (fun e : r = x => hr (e ▸ hτ)), h.regs r hr] }

theorem Keeps.writeWithFlag (h : Keeps τ s u) {x : RegIx} (hτ : τ.regs x) (hf : τ.regs flagReg) (b : Byte) (f : Bool) :
    Keeps τ s (u.writeWithFlag x b f) :=
  (h.writeV hτ b).writeV hf _

theorem Keeps.writeRegs (h : Keeps τ s u) {bytes : List Byte} (hτ : ∀ r : RegIx, r.toNat < bytes.length → τ.regs r) :
    Keeps τ s (u.writeRegs bytes) :=
  { h with
    regs := fun r hr => by
      have hlen : bytes.length ≤ r.toNat := not_lt.1 fun hlt => hr (hτ r hlt)
      rw [State.readV_writeRegs, List.getD_eq_default _ _ hlen, h.regs r hr] }

theorem Keeps.setMem (h : Keeps τ s u) (hτ : ∀ a, τ.bytes a) (m : Memory) : Keeps τ s { u with mem := m } :=
  { h with bytes := fun a ha => absurd (hτ a) ha }

theorem Keeps.setFb (h : Keeps τ s u) (hτ : τ.frame) (fb : Framebuffer) : Keeps τ s { u with fb := fb } :=
  { h with frame := absurd hτ }

theorem Keeps.setDt (h : Keeps τ s u) (hτ : τ.delay) (b : Byte) : Keeps τ s { u with dt := b } :=
  { h with delay := absurd hτ }

theorem Keeps.setSt (h : Keeps τ s u) (hτ : τ.sound) (b : Byte) : Keeps τ s { u with st := b } :=
  { h with sound := absurd hτ }

theorem Keeps.setDraws (h : Keeps τ s u) (hτ : τ.draws) (n : Nat) : Keeps τ s { u with draws := n } :=
  { h with draws := absurd hτ }

end

/-! ### The frame of an instruction -/

/-- The pieces of state instruction i may change while it executes in s: the registers by R22's last column, the other
pieces by the rule of their writers. PC is not told apart, and memory is one piece (its bytes are a matter of R68). -/
def touchOf (i : Instr) (s : State) : Touch where
  regs r := writesReg i r = true
  bytes _ := ∃ x, i = .ldB x ∨ i = .storeRegs x
  index := (∃ nnn, i = .ldI nnn) ∨ ∃ x, i = .addI x ∨ i = .ldF x ∨
    (i = .storeRegs x ∨ i = .loadRegs x) ∧ s.cfg.loadStoreQuirk = false
  pc := True
  stack := i = .ret ∨ ∃ nnn, i = .call nnn
  delay := ∃ x, i = .ldDtVx x
  sound := ∃ x, i = .ldStVx x
  frame := i = .cls ∨ ∃ x y n, i = .drw x y n
  draws := ∃ x kk, i = .rnd x kk

theorem Keeps.of_complete {τ : Touch} {s t u : State} (hu : Keeps τ s u) (h : complete u = .next t) : Keeps τ s t := by
  cases h; exact hu.setResult _

theorem Keeps.of_raise {τ : Touch} {s t : State} {e : StepError} (h : raise e s = .next t) : Keeps τ s t := by
  cases h; exact ((Keeps.refl τ s).recordFault e).setResult _

/-- Every instruction keeps what lies outside the pieces it may change. -/
theorem exec_keeps {i : Instr} {s t : State} (h : exec i s = .next t) : Keeps (touchOf i s) s t := by
  have hs : Keeps (touchOf i s) s s := Keeps.refl _ s
  cases i with
  | sys nnn => exact .of_raise h
  | cls => exact .of_complete (hs.setFb (.inl rfl) _) h
  | ret =>
    rcases execRet_cases s with ⟨-, hr⟩ | ⟨rest, r, -, hr⟩ <;> rw [hr] at h
    · exact .of_raise h
    · exact .of_complete ((hs.setStack (.inl rfl) rest).setPc trivial r) h
  | call nnn =>
    rcases execCall_cases nnn s with ⟨-, hr⟩ | ⟨-, hr⟩ <;> rw [hr] at h
    · exact .of_raise h
    · exact .of_complete ((hs.setStack (.inr ⟨nnn, rfl⟩) _).setPc trivial _) h
  | jp _ | jpV0 _ => exact .of_complete (hs.setPc trivial _) h
  | seImm _ _ | sneImm _ _ | seReg _ _ | sneReg _ _ | skp _ | sknp _ => exact .of_complete (hs.skipIf trivial _) h
  | ldImm x _ | addImm x _ | ldReg x _ | orReg x _ | andReg x _ | xorReg x _ | ldVxDt x =>
    exact .of_complete (hs.writeV (beq_self_eq_true x) _) h
  | addReg x _ | subReg x _ | subnReg x _ | shr x _ | shl x _ =>
    exact .of_complete (hs.writeWithFlag (by simp [touchOf, writesReg]) (by simp [touchOf, writesReg, flagReg]) _ _) h
  | ldI nnn => exact .of_complete (hs.setI (.inl ⟨nnn, rfl⟩) _) h
  | addI x => exact .of_complete (hs.setI (.inr ⟨x, .inl rfl⟩) _) h
  | ldF x => exact .of_complete (hs.setI (.inr ⟨x, .inr (.inl rfl)⟩) _) h
  | rnd x kk => exact .of_complete ((hs.setDraws ⟨x, kk, rfl⟩ _).writeV (beq_self_eq_true x) _) h
  | drw x y n =>
    rcases execDrw_cases x y n s with ⟨-, -, hr⟩ | ⟨-, hr⟩ <;> rw [hr] at h
    · exact .of_raise h
    · exact .of_complete ((hs.setFb (.inr ⟨x, y, n, rfl⟩) _).writeV (beq_self_eq_true flagReg) _) h
  | ldVxK x =>
    rcases execLdVxK_cases x s with ⟨k, -, -, hr⟩ | ⟨-, hr⟩ <;> rw [hr] at h
    · exact .of_complete (hs.writeV (beq_self_eq_true x) _) h
    · exact .of_complete (hs.setPc trivial _) h
  | ldDtVx x => exact .of_complete (hs.setDt ⟨x, rfl⟩ _) h
  | ldStVx x => exact .of_complete (hs.setSt ⟨x, rfl⟩ _) h
  | ldB x =>
    rcases execLdB_cases x s with ⟨-, hr⟩ | ⟨-, hr⟩ <;> rw [hr] at h
    · exact .of_raise h
    · exact .of_complete (hs.setMem (fun _ => ⟨x, .inl rfl⟩) _) h
  | storeRegs x =>
    rcases execStoreRegs_cases x s with ⟨-, hr⟩ | ⟨-, hr⟩ <;> rw [hr] at h
    · exact .of_raise h
    · exact .of_complete ((hs.setMem (fun _ => ⟨x, .inr rfl⟩) _).advanceIndex
        (fun hq => .inr ⟨x, .inr (.inr ⟨.inl rfl, hq⟩)⟩) x) h
  | loadRegs x =>
    rcases execLoadRegs_cases x s with ⟨-, hr⟩ | ⟨-, hr⟩ <;> rw [hr] at h
    · exact .of_raise h
    · refine .of_complete ((hs.writeRegs fun r hr => ?_).advanceIndex
        (fun hq => .inr ⟨x, .inr (.inr ⟨.inr rfl, hq⟩)⟩) x) h
      simpa [touchOf, writesReg, Nat.lt_succ_iff] using hr

/-- A step changes only what the instruction it executes may change, the one whose word stands at PC; a step that
executes none changes PC at most. -/
theorem step_keeps {s t : State} (h : step s = .next t) :
    Keeps { pc := True } s t ∨ ∃ i : Instr, (encode i).toNat = s.wordNumber ∧ Keeps (touchOf i s) s t := by
  rcases step_cases s with ⟨-, hs⟩ | ⟨w, -, hw, ⟨-, hs⟩ | ⟨i, hd, hs⟩⟩ <;> rw [hs] at h
  · exact .inl (.of_raise h)
  · cases h
    exact .inl (((Keeps.advancePc s).recordFault _).setResult _)
  · exact .inr ⟨i, by rw [(encode_of_decode hd).1, hw], { exec_keeps h with pc := absurd trivial }⟩

end Sys2Proof.Machine
end

section
/-! SUPPORT. The timers (10_state.md R32): a tick, and the two instructions whose execution can change one. -/

namespace Sys2Proof.Machine

/-- A tick takes a timer down by one, saturating at 0 (60_exceptions.md R212). -/
theorem toNat_tickTimer (b : Byte) : (tickTimer b).toNat = b.toNat - 1 := by
  unfold tickTimer
  split <;> bv_omega

/-- A step that changes DT has executed Fx15. -/
theorem step_changes_dt {s t : State} (h : step s = .next t) (hdt : t.dt ≠ s.dt) :
    ∃ x, (encode (.ldDtVx x)).toNat = s.wordNumber := by
  rcases step_keeps h with hk | ⟨i, hw, hk⟩
  · exact absurd (hk.delay id) hdt
  · obtain ⟨x, rfl⟩ : ∃ x, i = .ldDtVx x := not_imp_comm.1 hk.delay hdt
    exact ⟨x, hw⟩

/-- A step that changes ST has executed Fx18. -/
theorem step_changes_st {s t : State} (h : step s = .next t) (hst : t.st ≠ s.st) :
    ∃ x, (encode (.ldStVx x)).toNat = s.wordNumber := by
  rcases step_keeps h with hk | ⟨i, hw, hk⟩
  · exact absurd (hk.sound id) hst
  · obtain ⟨x, rfl⟩ : ∃ x, i = .ldStVx x := not_imp_comm.1 hk.sound hst
    exact ⟨x, hw⟩

/-- Settles O51: by the frame of a step for its instruction, and transaction by transaction for the host's. -/
theorem timersChangeOnlyBySetting : Obligations.TimersChangeOnlyBySetting := by
  unfold Obligations.TimersChangeOnlyBySetting
  intro s t
  refine ⟨fun h => ⟨fun hdt => ?_, fun hst => ?_⟩, fun h => ?_, fun _ => rfl, fun _ => rfl, ?_⟩
  · obtain ⟨x, hx⟩ := step_changes_dt h hdt
    simp [← hx, encode]
  · obtain ⟨x, hx⟩ := step_changes_st h hst
    simp [← hx, encode]
  · cases h
    simp only [State.dt_tick, State.st_tick, toNat_tickTimer]
    omega
  · rintro tr (⟨updates, rfl⟩ | ⟨request, rfl⟩) h
    · rw [transact_writeKeys] at h
      cases h
      exact ⟨rfl, rfl⟩
    · cases h
      exact ⟨rfl, rfl⟩

end Sys2Proof.Machine
end

section
/-! SUPPORT. ST is in no meaning but that of Fx18 (10_state.md R31): the operations that read the state do not see it,
and those that write it leave a replaced ST replaced. -/

namespace Sys2Proof.Machine

/-- The state with another sound timer. -/
def State.withSound (s : State) (v : Byte) : State := { s with st := v }

/-- The result with another sound timer in its next state. -/
def Result.withSound (r : Result) (v : Byte) : Result :=
  match r with
  | .next t => .next (t.withSound v)
  | .fault e => .fault e
  | .refused e => .refused e

section
variable (s : State) (v : Byte)

@[simp] theorem State.mem_withSound : (s.withSound v).mem = s.mem := rfl
@[simp] theorem State.cfg_withSound : (s.withSound v).cfg = s.cfg := rfl
@[simp] theorem State.indexAddress_withSound : (s.withSound v).indexAddress = s.indexAddress := rfl
@[simp] theorem State.readV_withSound (x : RegIx) : (s.withSound v).readV x = s.readV x := rfl
@[simp] theorem State.regsUpTo_withSound (x : RegIx) : (s.withSound v).regsUpTo x = s.regsUpTo x := rfl
@[simp] theorem State.lowestKey_withSound : (s.withSound v).lowestKey = s.lowestKey := rfl
@[simp] theorem State.stackFull_withSound : (s.withSound v).stackFull = s.stackFull := rfl

@[simp] theorem State.pop_withSound : (s.withSound v).pop = s.pop.map fun p => (p.1, p.2.withSound v) := by
  unfold State.pop
  cases h : s.stack.getLast? <;> simp [State.withSound, h]

@[simp] theorem State.skipIf_withSound (c : Bool) : (s.withSound v).skipIf c = (s.skipIf c).withSound v := by
  cases c <;> rfl

@[simp] theorem State.advanceIndex_withSound (x : RegIx) :
    (s.withSound v).advanceIndex x = (s.advanceIndex x).withSound v := by
  unfold State.advanceIndex
  rw [State.cfg_withSound]
  split <;> rfl

/-- The meaning of every instruction but Fx18 commutes with replacing ST. -/
theorem exec_withSound {i : Instr} (hi : ∀ x, i ≠ .ldStVx x) :
    exec i (s.withSound v) = Result.withSound (exec i s) v := by
  cases i with
  | ldStVx x => exact absurd rfl (hi x)
  | seImm _ _ | sneImm _ _ | seReg _ _ | sneReg _ _ | skp _ | sknp _ =>
    exact congrArg complete (State.skipIf_withSound s v _)
  | ret =>
    simp only [exec, execRet, State.pop_withSound]
    cases s.pop <;> rfl
  | call nnn =>
    cases hf : s.stackFull <;> simp only [exec, execCall, State.stackFull_withSound, hf] <;> rfl
  | drw x y n =>
    simp only [exec, execDrw, State.mem_withSound, State.indexAddress_withSound]
    cases memRead s.mem s.indexAddress n.toNat <;> rfl
  | ldVxK x =>
    simp only [exec, execLdVxK, State.lowestKey_withSound]
    cases s.lowestKey <;> rfl
  | ldB x =>
    simp only [exec, execLdB, State.mem_withSound, State.indexAddress_withSound, State.readV_withSound]
    cases memWrite s.mem s.indexAddress (bcdDigits (s.readV x)) <;> rfl
  | storeRegs x =>
    simp only [exec, execStoreRegs, State.mem_withSound, State.indexAddress_withSound, State.regsUpTo_withSound]
    cases memWrite s.mem s.indexAddress (s.regsUpTo x) with
    | none => rfl
    | some m => exact congrArg complete (State.advanceIndex_withSound { s with mem := m } v x)
  | loadRegs x =>
    simp only [exec, execLoadRegs, State.mem_withSound, State.indexAddress_withSound]
    cases memRead s.mem s.indexAddress (x.toNat + 1) with
    | none => rfl
    | some bytes => exact congrArg complete (State.advanceIndex_withSound (s.writeRegs bytes) v x)
  | _ => rfl

/-- Fx18 overwrites ST with Vx, whatever it held. -/
theorem exec_ldStVx_withSound (x : RegIx) : exec (.ldStVx x) (s.withSound v) = exec (.ldStVx x) s := rfl

end

/-- Settles O56: Fx18 overwrites ST, and every other meaning commutes with replacing it. -/
theorem soundTimerNeverRead : Obligations.SoundTimerNeverRead := by
  unfold Obligations.SoundTimerNeverRead
  intro i s t v h
  by_cases hi : ∃ x, i = .ldStVx x
  · obtain ⟨x, rfl⟩ := hi
    exact ⟨t.st, (exec_ldStVx_withSound s v x).trans h, fun hne => absurd rfl (hne x), fun _ => rfl⟩
  · have hne : ∀ x, i ≠ .ldStVx x := not_exists.1 hi
    refine ⟨v, ?_, fun _ => rfl, fun hx => absurd hx hi⟩
    exact (exec_withSound s v hne).trans (congrArg (Result.withSound · v) h)

end Sys2Proof.Machine
end

section
/-! SUPPORT. Which bytes an instruction can change (20_memory.md R67, R68): those its store addresses, all of them inside
memory. -/

namespace Sys2Proof.Machine

/-- A byte that reads differently after consecutive bytes were written is one of those addressed. -/
theorem Memory.addressed_of_read_writeBytes_ne {m : Memory} (hm : Memory.wf m) {a : Nat} {bytes : List Byte}
    (ha : a + bytes.length ≤ Config.memSize) {a' : Nat}
    (hne : Memory.read (Memory.writeBytes m a bytes) a' ≠ Memory.read m a') : a ≤ a' ∧ a' < a + bytes.length := by
  rw [Memory.read_writeBytes hm ha] at hne
  split at hne
  case isFalse => exact absurd rfl hne
  case isTrue hle =>
    refine ⟨hle, not_le.1 fun hge => hne ?_⟩
    exact List.getD_eq_default _ _ (by omega)

/-- A meaning that stores bytes at I, and faults when one of their addresses does not exist, changes only bytes it
addresses, inside memory (R68, D4). -/
theorem addressed_of_store {r : Result} {e : StepError} {s t u : State} {bytes : List Byte} (hm : Memory.wf s.mem)
    (hr : (s.i.toNat + bytes.length > 0x1000 ∧ r = raise e s) ∨
      (s.i.toNat + bytes.length ≤ 0x1000 ∧ r = complete u))
    (hu : u.mem = Memory.writeBytes s.mem s.indexAddress bytes) (ht : r = .next t) {a : Nat}
    (hne : Memory.read t.mem a ≠ Memory.read s.mem a) :
    s.i.toNat ≤ a ∧ a < s.i.toNat + bytes.length ∧ a ≤ 0xFFF := by
  rcases hr with ⟨-, rfl⟩ | ⟨hfits, rfl⟩ <;> cases ht
  case inl => exact absurd rfl hne
  case inr =>
    rw [State.mem_setResult, hu] at hne
    obtain ⟨hlo, hhi⟩ := Memory.addressed_of_read_writeBytes_ne hm hfits hne
    exact ⟨hlo, hhi, by omega⟩

/-- Settles O54: by the frame of every instruction only Fx33 and Fx55 change memory, and each is one checked store at
I. -/
theorem memoryWriters : Obligations.MemoryWriters := by
  unfold Obligations.MemoryWriters
  intro i s t a hm ht hne
  obtain ⟨x, rfl | rfl⟩ : ∃ x, i = .ldB x ∨ i = .storeRegs x := not_imp_comm.1 ((exec_keeps ht).bytes a) hne
  · obtain ⟨hlo, hhi, hin⟩ := addressed_of_store (bytes := bcdDigits (s.readV x)) hm (execLdB_cases x s) rfl ht hne
    exact ⟨x, .inl ⟨rfl, hlo, Nat.le_of_lt_succ hhi⟩, hin⟩
  · have hcases := execStoreRegs_cases x s
    rw [← State.length_regsUpTo s x] at hcases
    obtain ⟨hlo, hhi, hin⟩ := addressed_of_store hm hcases (State.mem_advanceIndex _ x) ht hne
    rw [State.length_regsUpTo] at hhi
    exact ⟨x, .inr ⟨rfl, hlo, Nat.le_of_lt_succ hhi⟩, hin⟩

end Sys2Proof.Machine
end

section
/-! SUPPORT. The instruction cycle (30_encoding.md R86 to R90): what a step does with the word at PC. -/

namespace Sys2Proof.Machine

/-- With the word at PC named, a step is the decode error of that word or exec of its instruction, after the advance. -/
theorem step_cases_of_word {s : State} {w : Word} (hpc : s.pc.toNat ≤ 0xFFE) (hw : w.toNat = s.wordNumber) :
    (decode w = .error .notWellFormed ∧ step s = raise (.notWellFormedInstruction w s.pc) s.advancePc) ∨
      ∃ i, decode w = .ok i ∧ step s = exec i s.advancePc := by
  rcases step_cases s with ⟨hgt, -⟩ | ⟨w', -, hw', hstep⟩
  · exact absurd hpc (not_le.2 hgt)
  · obtain rfl : w' = w := BitVec.eq_of_toNat_eq (hw'.trans hw.symm)
    exact hstep

/-- A word that decodes is executed, with PC advanced (R88). -/
theorem step_of_decode {s : State} {w : Word} {i : Instr} (hpc : s.pc.toNat ≤ 0xFFE) (hw : w.toNat = s.wordNumber)
    (hd : decode w = .ok i) : step s = exec i s.advancePc := by
  rcases step_cases_of_word hpc hw with ⟨herr, -⟩ | ⟨j, hj, hstep⟩
  · cases hd.symm.trans herr
  · cases hd.symm.trans hj
    exact hstep

/-- A word that does not decode is reported with its address, after the advance (R90). -/
theorem step_of_decode_error {s : State} {w : Word} (hpc : s.pc.toNat ≤ 0xFFE) (hw : w.toNat = s.wordNumber)
    (hd : decode w = .error .notWellFormed) :
    step s = raise (.notWellFormedInstruction w s.pc) s.advancePc := by
  rcases step_cases_of_word hpc hw with ⟨-, hstep⟩ | ⟨i, hi, -⟩
  · exact hstep
  · cases hd.symm.trans hi

/-- A word that decodes to SYS is reported with its address, after the advance (R90, 40_control_flow.md R112). -/
theorem step_of_decode_sys {s : State} {w : Word} {nnn : Addr12} (hpc : s.pc.toNat ≤ 0xFFE)
    (hw : w.toNat = s.wordNumber) (hd : decode w = .ok (.sys nnn)) :
    step s = raise (.unsupportedInstruction w s.pc) s.advancePc := by
  rw [step_of_decode hpc hw hd, ← (encode_of_decode hd).1, ← State.fetchAddress_advancePc s]
  rfl

/-- An error raised after the advance changes PC alone, to the word after the one fetched. -/
theorem raises_of_raise_advancePc {r : Result} {e : StepError} {s : State} (h : r = raise e s.advancePc) :
    ∃ t, Raises r e { pc := True } s t ∧ t.pc = s.pc + 2 := by
  subst h
  exact ⟨_, .of_raise (Keeps.advancePc s), rfl⟩

/-- Settles O6: of all that a step can be, only exec of the instruction the word at PC decodes to is left. -/
theorem stepRunsDecodedInstruction : Obligations.StepRunsDecodedInstruction := by
  unfold Obligations.StepRunsDecodedInstruction
  intro s w i hpc hw hd
  exact step_of_decode hpc hw hd

/-- Settles O8: either kind of decode error is raised after the advance, with the word at PC and PC before it. -/
theorem decodeErrorsAdvanceOnly : Obligations.DecodeErrorsAdvanceOnly := by
  unfold Obligations.DecodeErrorsAdvanceOnly
  intro s w hpc hw
  refine ⟨fun hd => raises_of_raise_advancePc (step_of_decode_error hpc hw hd), ?_⟩
  rintro ⟨nnn, hd⟩
  exact raises_of_raise_advancePc (step_of_decode_sys hpc hw hd)

end Sys2Proof.Machine
end

section
/-! SUPPORT. Control flow (40_control_flow.md R110, R115 to R119): the words of an instruction decode to it, and what
a skip on a condition does. -/

namespace Sys2Proof

/-- The word of a well-formed instruction decodes to it (30_encoding.md R84, R85). -/
theorem decode_encode {i : Instr} (hi : i.wellFormed = true) : decode (encode i) = .ok i := by
  cases i with
  | cls | ret => rfl
  | sys nnn =>
    have hne : nnn ≠ 0x0E0#12 ∧ nnn ≠ 0x0EE#12 := by simpa [Instr.wellFormed] using hi
    simp [encode, decode_ofNNN, decodeNibbles, decodeFamily0, hne]
  | jp _ | call _ | ldI _ | jpV0 _ => simp [encode, decode_ofNNN, decodeNibbles]
  | seImm _ _ | sneImm _ _ | ldImm _ _ | addImm _ _ | rnd _ _ => simp [encode, decode_ofXKK, decodeNibbles]
  | skp _ | sknp _ => simp [encode, decode_ofXKK, decodeNibbles, decodeFamilyE]
  | ldVxDt _ | ldVxK _ | ldDtVx _ | ldStVx _ | addI _ | ldF _ | ldB _ | storeRegs _ | loadRegs _ =>
    simp [encode, decode_ofXKK, decodeNibbles, decodeFamilyF]
  | _ => exact decode_ofNibbles _ _ _ _

end Sys2Proof

namespace Sys2Proof.Machine

/-- The number of a well-formed instruction's word stands for that instruction. -/
theorem EncodedAs.of_wellFormed {i : Instr} {w : Nat} (hi : i.wellFormed = true) (hw : (encode i).toNat = w) :
    EncodedAs w i :=
  .of_encode (decode_encode hi) hw

/-- Families 5 and 9 have no instruction with n other than 0 (R117, R118, 30_encoding.md R92). -/
theorem decode_eq_error_of_family {f x y n : Nibble} (hf : f = 0x5#4 ∨ f = 0x9#4) (hn : n ≠ 0) {u : Word}
    (hu : u.toNat = 0x1000 * f.toNat + 0x100 * x.toNat + 0x10 * y.toNat + n.toNat) :
    decode u = .error .notWellFormed := by
  obtain rfl : u = Word.ofNibbles f x y n := BitVec.eq_of_toNat_eq (hu.trans (Word.toNat_ofNibbles f x y n).symm)
  rw [decode_ofNibbles]
  rcases hf with rfl | rfl <;> exact if_neg hn

/-- A meaning that completes after a skip on the truth of c skips exactly when c holds (R119). -/
theorem SkipsWhen.of_skipIf {i : Instr} {c : Prop} {b : Bool} {s : State} (h : exec i s = complete (s.skipIf b))
    (hb : b = true ↔ c) : SkipsWhen i c s := by
  constructor
  · intro hc
    obtain rfl : b = true := hb.2 hc
    exact ⟨_, .of_complete h rfl ((Keeps.refl _ s).skipIf trivial true), rfl⟩
  · intro hc
    obtain rfl : b = false := Bool.eq_false_iff.2 fun ht => hc (hb.1 ht)
    exact ⟨_, .of_complete h rfl (Keeps.refl _ s)⟩

/-- Settles O10: the meaning is one write of the clear framebuffer, whose pixels are all off. -/
theorem clsTurnsPixelsOff : Obligations.ClsTurnsPixelsOff := by
  unfold Obligations.ClsTurnsPixelsOff
  refine ⟨.of_wellFormed rfl rfl, fun s => ⟨_, .of_complete rfl rfl ((Keeps.refl _ s).setFb trivial _), ?_⟩⟩
  intro y x _ _
  exact Framebuffer.pixel_clear y x

/-- Settles O15: each meaning is a skip on its comparison, and the words are those of formats XKK and XYN. -/
theorem registerSkips : Obligations.RegisterSkips := by
  unfold Obligations.RegisterSkips
  intro x y kk
  refine ⟨.of_wellFormed rfl (Word.toNat_ofXKK 0x3#4 x kk),
    .of_wellFormed rfl (Word.toNat_ofXKK 0x4#4 x kk),
    .of_wellFormed rfl (Word.toNat_ofNibbles 0x5#4 x y 0x0#4),
    .of_wellFormed rfl (Word.toNat_ofNibbles 0x9#4 x y 0x0#4), ?_, fun s => ?_⟩
  · rintro n u hn (hu | hu)
    · exact decode_eq_error_of_family (.inl rfl) hn hu
    · exact decode_eq_error_of_family (.inr rfl) hn hu
  · exact ⟨.of_skipIf rfl beq_iff_eq, .of_skipIf rfl bne_iff_ne, .of_skipIf rfl beq_iff_eq, .of_skipIf rfl bne_iff_ne⟩

end Sys2Proof.Machine
end

section
/-! SUPPORT. Register operations (41_register_ops.md R130 to R145): what a meaning that ends with one register write, or
with a write and the flag after it, does; the differences, shifts and flags as numbers. -/

namespace Sys2Proof.Machine

/-! ### Family 8 -/

/-- The word 8xyn of a well-formed instruction stands for it (30_encoding.md R84). -/
theorem EncodedAs.of_family8 {i : Instr} {x y : RegIx} (n : Nibble) (hi : i.wellFormed = true)
    (he : encode i = Word.ofNibbles 0x8#4 x y n) : EncodedAs (0x8000 + n.toNat + 0x100 * x.toNat + 0x10 * y.toNat) i := by
  have h8 : (0x8#4).toNat = 8 := rfl
  refine .of_wellFormed hi ?_
  rw [he, Word.toNat_ofNibbles]; omega

/-! ### Endings -/

/-- A meaning that ends by writing b to Vx changes Vx alone, VF included (10_state.md R24). -/
theorem exists_completes_of_writeV {i : Instr} {s : State} {x : RegIx} {b : Byte} (h : exec i s = complete (s.writeV x b)) :
    ∃ t, Completes i { regs := (· = x) } s t ∧ t.readV x = b :=
  ⟨_, .of_complete h rfl ((Keeps.refl _ s).writeV rfl b), by simp⟩

/-- A meaning that ends by writing b to Vx and then the flag to VF leaves the flag in VF, and b in Vx where Vx is not VF
(R140). -/
theorem exists_completes_of_writeWithFlag {i : Instr} {s : State} {x : RegIx} {b : Byte} {f : Bool} {n m : Nat}
    (h : exec i s = complete (s.writeWithFlag x b f)) (hb : b.toNat = n) (hf : (flagByte f).toNat = m) :
    ∃ t, Completes i { regs := fun r => r = x ∨ r = 0xF } s t ∧
      (x ≠ 0xF → (t.readV x).toNat = n) ∧ (t.readV 0xF).toNat = m := by
  have hk : Keeps { regs := fun r => r = x ∨ r = 0xF } s (s.writeWithFlag x b f) :=
    .writeWithFlag (.refl _ s) (Or.inl rfl) (Or.inr rfl) b f
  refine ⟨_, .of_complete h rfl hk, fun hx => ?_, ?_⟩
  · have hx' : x ≠ flagReg := hx
    simpa [hx'] using hb
  · have hVF : (0xF : RegIx) = flagReg := rfl
    simpa [hVF] using hf

/-! ### Flags and results as numbers -/

theorem toNat_flagByte (c : Bool) : (flagByte c).toNat = c.toNat := by
  cases c <;> rfl

/-- A flag that says c is the number 1 where c holds and 0 where it does not (R139, 10_state.md R23). -/
theorem toNat_flagByte_decide (c : Prop) [Decidable c] : (flagByte (decide c)).toNat = if c then 1 else 0 := by
  rw [toNat_flagByte]
  by_cases h : c <;> simp [h]

theorem toNat_sub_byte (p q : Byte) : (p - q).toNat = (p.toNat + 256 - q.toNat) % 256 := by
  have := q.isLt
  rw [BitVec.toNat_sub]; omega

theorem toNat_shiftRight_one (b : Byte) : (b >>> 1).toNat = b.toNat / 2 := by
  rw [BitVec.toNat_ushiftRight, Nat.shiftRight_eq_div_pow]

theorem toNat_shiftLeft_one (b : Byte) : (b <<< 1).toNat = 2 * b.toNat % 256 := by
  rw [BitVec.toNat_shiftLeft, Nat.shiftLeft_eq, Nat.mul_comm]

/-- The bit a right shift moves out is the remainder of the halving (R143). -/
theorem toNat_bitOutRight (b : Byte) : (flagByte (bitOutRight b)).toNat = b.toNat % 2 := by
  rw [toNat_flagByte, bitOutRight, BitVec.getLsbD, Nat.toNat_testBit, Nat.pow_zero, Nat.div_one]

/-- The bit a left shift moves out is the carry of the doubling (R145). -/
theorem toNat_bitOutLeft (b : Byte) : (flagByte (bitOutLeft b)).toNat = b.toNat / 128 := by
  have := b.isLt
  rw [toNat_flagByte, bitOutLeft, BitVec.getLsbD, Nat.toNat_testBit]; omega

/-! ### The instructions -/

/-- Settles O16: both meanings are one write of Vx. -/
theorem loadsWriteOneRegister : Obligations.LoadsWriteOneRegister := by
  unfold Obligations.LoadsWriteOneRegister
  intro x y kk
  exact ⟨.of_wellFormed rfl (Word.toNat_ofXKK 0x6#4 x kk), .of_family8 0x0 rfl rfl,
    fun s => ⟨exists_completes_of_writeV rfl, exists_completes_of_writeV rfl⟩⟩

/-- Settles O17: the meaning is one write of Vx, and a sum of bytes is the sum modulo 256. -/
theorem addImmediateWraps : Obligations.AddImmediateWraps := by
  unfold Obligations.AddImmediateWraps
  refine fun x kk => ⟨.of_wellFormed rfl (Word.toNat_ofXKK 0x7#4 x kk), fun s => ?_⟩
  obtain ⟨t, ht, hx⟩ := exists_completes_of_writeV (i := .addImm x kk) (s := s) rfl
  exact ⟨t, ht, by rw [hx, BitVec.toNat_add]⟩

/-- Settles O19: the meaning writes the sum and then the carry, both of the operands before any write. -/
theorem addSetsCarry : Obligations.AddSetsCarry := by
  unfold Obligations.AddSetsCarry
  intro x y
  exact ⟨.of_family8 0x4 rfl rfl,
    fun s => exists_completes_of_writeWithFlag rfl (BitVec.toNat_add _ _) (toNat_flagByte_decide _)⟩

/-- Settles O20: both meanings write a difference and then its not-borrow. -/
theorem subtractSetsNotBorrow : Obligations.SubtractSetsNotBorrow := by
  unfold Obligations.SubtractSetsNotBorrow
  intro x y
  exact ⟨.of_family8 0x5 rfl rfl,
    .of_family8 0x7 rfl rfl,
    fun s => ⟨exists_completes_of_writeWithFlag rfl (toNat_sub_byte _ _) (toNat_flagByte_decide _),
      exists_completes_of_writeWithFlag rfl (toNat_sub_byte _ _) (toNat_flagByte_decide _)⟩⟩

/-- Settles O21: both meanings write the shifted source and then the bit moved out of it. -/
theorem shiftsByOneBit : Obligations.ShiftsByOneBit := by
  unfold Obligations.ShiftsByOneBit
  intro x y
  refine ⟨.of_family8 0x6 rfl rfl,
    .of_family8 0xE rfl rfl, fun s src hsrc => ?_⟩
  obtain rfl : src = s.shiftSource x y := hsrc
  exact ⟨exists_completes_of_writeWithFlag rfl (toNat_shiftRight_one _) (toNat_bitOutRight _),
    exists_completes_of_writeWithFlag rfl (toNat_shiftLeft_one _) (toNat_bitOutLeft _)⟩

end Sys2Proof.Machine
end

section
/-! SUPPORT. Addressing (42_addressing.md R150): an address field as a word, and what a meaning that ends with one write of
I does. -/

namespace Sys2Proof.Machine

/-- The word of an address field is the field's number, with bits 15:12 equal to 0 (R150). -/
@[simp] theorem toNat_addrOf (nnn : Addr12) : (addrOf nnn).toNat = nnn.toNat :=
  BitVec.toNat_setWidth_of_le (by decide)

/-- A meaning that ends by writing a to I changes I alone. -/
theorem exists_completes_of_setI {i : Instr} {s : State} {a : Word} (h : exec i s = complete (s.setI a)) :
    ∃ t, Completes i { index := True } s t ∧ t.i = a :=
  ⟨_, .of_complete h rfl ((Keeps.refl _ s).setI trivial a), rfl⟩

/-- Settles O23: the meaning is one write of I, by the word of the address field. -/
theorem loadIndexSetsI : Obligations.LoadIndexSetsI := by
  unfold Obligations.LoadIndexSetsI
  refine fun nnn => ⟨.of_wellFormed rfl (Word.toNat_ofNNN 0xA#4 nnn), fun s => ?_⟩
  obtain ⟨t, ht, hi⟩ := exists_completes_of_setI (i := .ldI nnn) (s := s) rfl
  exact ⟨t, ht, by rw [hi, toNat_addrOf]⟩

end Sys2Proof.Machine
end

section
/-! SUPPORT. Random (43_random.md R160, R161): the byte a draw answers and the state it leaves, and the mask. -/

namespace Sys2Proof.Machine

/-- A draw changes the counter of draws alone (log 7). -/
theorem Keeps.drawByte {τ : Touch} {s u : State} (h : Keeps τ s u) (hτ : τ.draws) : Keeps τ s u.drawByte.2 :=
  h.setDraws hτ _

/-- Cxkk is one draw and then one write of Vx, by the drawn byte masked with kk. -/
theorem exists_completes_rnd (x : RegIx) (kk : Byte) (s : State) :
    ∃ t, Completes (.rnd x kk) { regs := (· = x), draws := True } s t ∧
      t.readV x = Config.randomByte s.draws &&& kk ∧ t.draws = s.draws + 1 :=
  ⟨_, .of_complete rfl rfl (((Keeps.refl _ s).drawByte trivial).writeV rfl _), by simp [State.drawByte], rfl⟩

/-- A masked byte is clear wherever its mask is. -/
theorem getLsbD_and_of_mask_clear (r : Byte) {kk : Byte} {b : Nat} (hb : kk.getLsbD b = false) :
    (r &&& kk).getLsbD b = false := by
  rw [BitVec.getLsbD_and, hb, Bool.and_false]

/-- Settles O27: one draw and one masked write, so a bit clear in kk is clear in Vx. -/
theorem randomIsMasked : Obligations.RandomIsMasked := by
  unfold Obligations.RandomIsMasked
  refine fun x kk => ⟨.of_wellFormed rfl (Word.toNat_ofXKK 0xC#4 x kk), fun s => ?_⟩
  obtain ⟨t, ht, hx, hdraws⟩ := exists_completes_rnd x kk s
  refine ⟨t, ht, hx, hdraws, fun b hb => ?_⟩
  rw [hx]
  exact getLsbD_and_of_mask_clear _ hb

end Sys2Proof.Machine
end

section
/-! SUPPORT. Writers of the framebuffer, I and the call stack (10_state.md R28, R29, R33, 44_draw.md R173). -/

namespace Sys2Proof.Machine

/-- Settles O53: by the frame of every instruction, a piece that changed is one the instruction may change. -/
theorem frameIndexStackWriters : Obligations.FrameIndexStackWriters := by
  unfold Obligations.FrameIndexStackWriters
  intro i s t h
  have hk := exec_keeps h
  exact ⟨not_imp_comm.1 hk.frame, not_imp_comm.1 hk.index, not_imp_comm.1 hk.stack⟩

end Sys2Proof.Machine
end

section
/-! SUPPORT. Draw (44_draw.md R165 to R170): the bits the draw loops set are those of the spec's sprite, and what the
draw leaves in the pixels and in VF. -/

namespace Sys2Proof.Machine

/-! ### The sprite's set bits -/

/-- A row byte covers the columns of its set bits, bit 7 leftmost (R165, D28). -/
theorem rowCovers_eq_true {x0 : Nat} {row : Byte} {px : Nat} :
    rowCovers x0 row px = true ↔ ∃ b, b < 8 ∧ px = x0 + b ∧ row.getLsbD (7 - b) = true := by
  simp only [rowCovers, Bool.and_eq_true, decide_eq_true_eq]
  constructor
  · rintro ⟨⟨hlo, hhi⟩, hbit⟩
    exact ⟨px - x0, by omega, by omega, hbit⟩
  · rintro ⟨b, hb, rfl, hbit⟩
    rw [Nat.add_sub_cancel_left]
    exact ⟨⟨by omega, by omega⟩, hbit⟩

/-- Row r of the sprite is the byte at I + r (R168). -/
theorem getElem?_spriteRows_eq_some {s : State} {n : Nibble} {r : Nat} {row : Byte} :
    (spriteRows s n)[r]? = some row ↔ r < n.toNat ∧ Memory.read s.mem (s.i.toNat + r) = row := by
  simp [spriteRows, State.indexAddress, List.getElem?_eq_some_iff]

/-- Rows from screen row py cover the pixels of their set bits that are on the screen (R167). -/
theorem rowsCover_eq_true {py x0 : Nat} {rows : List Byte} {py' px : Nat} :
    rowsCover py x0 rows py' px = true ↔
      py' < 32 ∧ px < 64 ∧ ∃ r row, rows[r]? = some row ∧ py' = py + r ∧ rowCovers x0 row px = true := by
  have hrow (o : Option Byte) :
      o.elim false (rowCovers x0 · px) = true ↔ ∃ row, o = some row ∧ rowCovers x0 row px = true := by
    cases o <;> simp
  simp only [rowsCover, Bool.and_eq_true, decide_eq_true_eq, hrow]
  constructor
  · rintro ⟨⟨⟨hy, hx⟩, hle⟩, row, hr, hc⟩
    exact ⟨hy, hx, py' - py, row, hr, by omega, hc⟩
  · rintro ⟨hy, hx, r, row, hr, rfl, hc⟩
    rw [Nat.add_sub_cancel_left]
    exact ⟨⟨⟨hy, hx⟩, by omega⟩, row, hr, hc⟩

/-- The loops' rows and origin cover exactly the pixels of the spec's sprite (R165 to R167). -/
theorem rowsCover_spriteRows {s : State} {x y : RegIx} {n : Nibble} {py px : Nat} :
    rowsCover (s.originY y) (s.originX x) (spriteRows s n) py px = true ↔ SpriteCovers s x y n py px := by
  simp only [rowsCover_eq_true, getElem?_spriteRows_eq_some, rowCovers_eq_true]
  constructor
  · rintro ⟨hy, hx, r, _, ⟨hr, rfl⟩, hpy, b, hb, hpx, hbit⟩
    exact ⟨r, b, hr, hb, hpy, hpx, hy, hx, hbit⟩
  · rintro ⟨r, b, hr, hb, hpy, hpx, hy, hx, hbit⟩
    exact ⟨hy, hx, r, _, ⟨hr, rfl⟩, hpy, b, hb, hpx, hbit⟩

/-! ### The draw -/

/-- What the draw loops of Dxyn end with. -/
def State.drawnSprite (s : State) (x y : RegIx) (n : Nibble) : DrawState :=
  drawRows (s.originY y) (s.originX x) (spriteRows s n) { fb := s.fb, collision := false }

/-- The draw changes exactly the pixels the sprite covers (R169). -/
theorem pixel_drawnSprite_ne {s : State} {x y : RegIx} {n : Nibble} {py px : Nat} :
    Framebuffer.pixel (s.drawnSprite x y n).fb py px ≠ Framebuffer.pixel s.fb py px ↔ SpriteCovers s x y n py px := by
  rw [State.drawnSprite, pixel_drawRows, ← rowsCover_spriteRows]
  cases rowsCover (s.originY y) (s.originX x) (spriteRows s n) py px <;> simp

/-- The draw collides exactly when the sprite covers a pixel that was on (R169). -/
theorem collision_drawnSprite {s : State} {x y : RegIx} {n : Nibble} :
    (s.drawnSprite x y n).collision = true ↔
      ∃ py px, SpriteCovers s x y n py px ∧ Framebuffer.pixel s.fb py px = true := by
  simp only [State.drawnSprite, collision_drawRows, rowsCover_spriteRows, Bool.false_eq_true, false_or]

/-- Dxyn with a sprite byte above 0xFFF (R170, D4). -/
theorem exec_drw_of_outside {x y : RegIx} {n : Nibble} {s : State} (hn : n.toNat > 0)
    (h : s.i.toNat + n.toNat - 1 > 0xFFF) : exec (.drw x y n) s = raise (.memoryAddressFault s.i n.toNat) s := by
  rcases execDrw_cases x y n s with ⟨-, -, hr⟩ | ⟨hfits, -⟩
  · exact hr
  · omega

/-- Dxyn with every sprite byte in memory, or none to read (R168, R171). -/
theorem exec_drw_of_fits {x y : RegIx} {n : Nibble} {s : State} (h : n.toNat > 0 → s.i.toNat + n.toNat - 1 ≤ 0xFFF) :
    exec (.drw x y n) s = complete (s.finishDraw (s.drawnSprite x y n)) := by
  rcases execDrw_cases x y n s with ⟨hn, hout, -⟩ | ⟨-, hr⟩
  · have := h hn
    omega
  · exact hr

/-- The end of a draw changes FB and VF alone. -/
theorem Keeps.finishDraw {τ : Touch} {s u : State} (h : Keeps τ s u) (hfb : τ.frame) (hf : τ.regs flagReg)
    (d : DrawState) : Keeps τ s (u.finishDraw d) :=
  (h.setFb hfb d.fb).writeV hf _

@[simp] theorem flagByte_eq_one {c : Bool} : flagByte c = 1 ↔ c = true := by
  cases c <;> decide

theorem flagByte_eq_zero_or_one (c : Bool) : flagByte c = 0 ∨ flagByte c = 1 := by
  cases c <;> decide

/-- Settles O28: the meaning is the fault, or the draw loops and then the flag, and the loops toggle and report exactly
the pixels of the spec's sprite. -/
theorem drawTogglesCoveredPixels : Obligations.DrawTogglesCoveredPixels := by
  unfold Obligations.DrawTogglesCoveredPixels
  refine fun x y n => ⟨.of_wellFormed rfl (Word.toNat_ofNibbles 0xD#4 x y n), fun s hn hout => ?_, fun s hfits => ?_⟩
  · rw [exec_drw_of_outside hn hout]
    exact ⟨_, .of_raise (Keeps.refl _ s)⟩
  · have hVF : ((s.finishDraw (s.drawnSprite x y n)).setResult .ok).readV 0xF =
        flagByte (s.drawnSprite x y n).collision := by
      rw [State.readV_setResult, State.readV_finishDraw]
      exact if_pos rfl
    refine ⟨_, .of_complete (exec_drw_of_fits hfits) rfl ((Keeps.refl _ s).finishDraw trivial rfl _), ?_, ?_, ?_⟩
    · exact fun _ _ _ _ => pixel_drawnSprite_ne
    · rw [hVF]; exact flagByte_eq_zero_or_one _
    · rw [hVF, flagByte_eq_one, collision_drawnSprite]

end Sys2Proof.Machine
end

section
/-! SUPPORT. Input (45_input.md R180 to R182): the key index as a number, a key's state as its flag, and the words of a row
with x and a fixed last byte. -/

namespace Sys2Proof.Machine

/-- The word fxkk of a well-formed instruction with a fixed last byte stands for it (30_encoding.md R84). -/
theorem EncodedAs.of_formatXKK {i : Instr} {x : RegIx} (f : Nibble) (kk : Byte) (hi : i.wellFormed = true)
    (he : encode i = Word.ofXKK f x kk) : EncodedAs (0x1000 * f.toNat + kk.toNat + 0x100 * x.toNat) i := by
  refine .of_wellFormed hi ?_
  rw [he, Word.toNat_ofXKK]; omega

/-- The key index is the low nibble of Vx as a number (R182). -/
theorem State.keyIndex_eq_mod (s : State) (x : RegIx) : s.keyIndex x = (s.readV x).toNat % 16 := by
  rw [State.keyIndex, BitVec.toNat_and]
  exact Nat.and_two_pow_sub_one_eq_mod _ 4

/-- Every key index names one of the 16 keys, so no skip looks a key up in vain. -/
theorem State.keyIndex_lt (s : State) (x : RegIx) : s.keyIndex x < 16 := by
  rw [s.keyIndex_eq_mod x]
  exact Nat.mod_lt _ (by decide)

/-- A key is held when its flag is set (10_state.md R35). -/
theorem State.keyHeld_eq_true {s : State} {k : Nat} : s.keyHeld k = true ↔ s.keys[k]? = some true := by
  rw [State.keyHeld]
  cases s.keys[k]? <;> simp

/-- One of the 16 keys is not held when its flag is clear (R35). -/
theorem State.keyHeld_eq_false {s : State} {k : Nat} (hk : k < 16) :
    s.keyHeld k = false ↔ s.keys[k]? = some false := by
  rw [State.keyHeld, Vector.getElem?_eq_getElem hk]
  simp

/-- Settles O31: each meaning is a skip on the flag of the key whose number is the low nibble of Vx. -/
theorem keySkips : Obligations.KeySkips := by
  unfold Obligations.KeySkips
  refine fun x => ⟨.of_formatXKK 0xE 0x9E rfl rfl, .of_formatXKK 0xE 0xA1 rfl rfl, fun s => ?_⟩
  rw [← s.keyIndex_eq_mod x]
  have hreleased : (!s.keyHeld (s.keyIndex x)) = true ↔ s.keys[s.keyIndex x]? = some false := by
    rw [Bool.not_eq_true', State.keyHeld_eq_false (s.keyIndex_lt x)]
  exact ⟨.of_skipIf rfl State.keyHeld_eq_true, .of_skipIf rfl hreleased⟩

end Sys2Proof.Machine
end

section
/-! SUPPORT. Timers and miscellany (46_timers_misc.md R185 to R191): the lowest held key by the key flags, the outcomes of
Fx0A and Fx33, and what a store of consecutive bytes reads back and leaves unchanged. -/

namespace Sys2Proof.Machine

/-! ### Timer access -/

/-- Settles O32: Fx07 is one write of Vx, Fx15 and Fx18 are one write of a timer. -/
theorem timerAccess : Obligations.TimerAccess := by
  unfold Obligations.TimerAccess
  refine fun x => ⟨.of_formatXKK 0xF 0x07 rfl rfl, .of_formatXKK 0xF 0x15 rfl rfl, .of_formatXKK 0xF 0x18 rfl rfl,
    fun s => ⟨exists_completes_of_writeV rfl, ?_, ?_⟩⟩
  · exact ⟨_, .of_complete rfl rfl ((Keeps.refl _ s).setDt trivial _), rfl⟩
  · exact ⟨_, .of_complete rfl rfl ((Keeps.refl _ s).setSt trivial _), rfl⟩

/-! ### Wait for key -/

/-- A key whose flag is set, with every flag below it clear, is the lowest held key (R188). -/
theorem State.lowestKey_of_flags {s : State} {k : Nat} (hk : s.keys[k]? = some true)
    (hlow : ∀ j, j < k → s.keys[j]? = some false) : s.lowestKey = some k := by
  obtain ⟨hk16, -⟩ := Vector.getElem?_eq_some_iff.1 hk
  exact State.lowestKey_eq_some.2
    ⟨hk16, State.keyHeld_eq_true.2 hk, fun j hj => (State.keyHeld_eq_false (hj.trans hk16)).2 (hlow j hj)⟩

/-- With all 16 flags clear no key is held (R188). -/
theorem State.lowestKey_of_none_held {s : State} (h : ∀ j, j < 16 → s.keys[j]? = some false) : s.lowestKey = none :=
  State.lowestKey_eq_none.2 fun j hj => (State.keyHeld_eq_false hj).2 (h j hj)

/-- Fx0A with a key held. -/
theorem exec_ldVxK_of_held {s : State} {k : Nat} (h : s.lowestKey = some k) (x : RegIx) :
    exec (.ldVxK x) s = complete (s.writeV x (BitVec.ofNat 8 k)) := by
  rcases execLdVxK_cases x s with ⟨j, hj, -, hr⟩ | ⟨hnone, -⟩
  · cases hj.symm.trans h
    exact hr
  · cases hnone.symm.trans h

/-- Fx0A with no key held. -/
theorem exec_ldVxK_of_none_held {s : State} (h : s.lowestKey = none) (x : RegIx) :
    exec (.ldVxK x) s = complete (s.setPc (s.pc - 2)) := by
  rcases execLdVxK_cases x s with ⟨j, hj, -, -⟩ | ⟨-, hr⟩
  · cases hj.symm.trans h
  · exact hr

/-- Settles O33: the flags decide the lowest held key, and the meaning is one write of Vx or one of PC by it. -/
theorem waitForKeyTakesLowest : Obligations.WaitForKeyTakesLowest := by
  unfold Obligations.WaitForKeyTakesLowest
  refine fun x => ⟨.of_formatXKK 0xF 0x0A rfl rfl, fun s k hk hlow => ?_, fun s hnone => ?_⟩
  · have hkey := State.lowestKey_of_flags hk hlow
    obtain ⟨hk16, -⟩ := State.lowestKey_eq_some.1 hkey
    obtain ⟨t, ht, hx⟩ := exists_completes_of_writeV (exec_ldVxK_of_held hkey x)
    refine ⟨t, ht, ?_⟩
    rw [hx, BitVec.toNat_ofNat]
    exact Nat.mod_eq_of_lt (by omega)
  · have hexec := exec_ldVxK_of_none_held (State.lowestKey_of_none_held hnone) x
    exact ⟨_, .of_complete hexec rfl ((Keeps.refl _ s).setPc trivial _), rfl⟩

/-! ### Storing bytes -/

/-- A stored byte is read back at its address. -/
theorem Memory.read_writeBytes_add {m : Memory} (hm : Memory.wf m) {a : Nat} {bytes : List Byte}
    (ha : a + bytes.length ≤ Config.memSize) {k : Nat} {b : Byte} (hk : bytes[k]? = some b) :
    Memory.read (Memory.writeBytes m a bytes) (a + k) = b := by
  rw [Memory.read_writeBytes hm ha, if_pos (Nat.le_add_right a k), Nat.add_sub_cancel_left, List.getD_eq_getElem?_getD, hk]
  rfl

/-- A store of consecutive bytes inside memory changes the bytes it addresses alone (20_memory.md R67). -/
theorem Keeps.writeBytes {τ : Touch} {s u : State} (h : Keeps τ s u) (hm : Memory.wf u.mem) {a : Nat} {bytes : List Byte}
    (ha : a + bytes.length ≤ Config.memSize) (hτ : ∀ a', a ≤ a' ∧ a' < a + bytes.length → τ.bytes a') :
    Keeps τ s { u with mem := Memory.writeBytes u.mem a bytes } :=
  { h with
    bytes := fun a' ha' => by
      have hsame : Memory.read (Memory.writeBytes u.mem a bytes) a' = Memory.read u.mem a' :=
        not_imp_comm.1 (Memory.addressed_of_read_writeBytes_ne hm ha) fun hin => ha' (hτ a' hin)
      exact hsame.trans (h.bytes a' ha') }

/-! ### Decimal digits -/

/-- Fx33 with one of its three bytes above 0xFFF (R191, D4). -/
theorem exec_ldB_of_outside {s : State} (h : s.i.toNat + 2 > 0xFFF) (x : RegIx) :
    exec (.ldB x) s = raise (.memoryAddressFault s.i 3) s := by
  rcases execLdB_cases x s with ⟨-, hr⟩ | ⟨hfits, -⟩
  · exact hr
  · omega

/-- Fx33 with its three bytes in memory (R191). -/
theorem exec_ldB_of_fits {s : State} (h : s.i.toNat + 2 ≤ 0xFFF) (x : RegIx) :
    exec (.ldB x) s = complete { s with mem := Memory.writeBytes s.mem s.indexAddress (bcdDigits (s.readV x)) } := by
  rcases execLdB_cases x s with ⟨hout, -⟩ | ⟨-, hr⟩
  · omega
  · exact hr

/-- Where the digits of a byte are stored, the three addresses read as its hundreds, tens and units (R191, R192). -/
theorem Memory.read_writeBytes_bcdDigits {m : Memory} (hm : Memory.wf m) {a : Nat} (ha : a + 3 ≤ Config.memSize) (b : Byte) :
    (Memory.read (Memory.writeBytes m a (bcdDigits b)) a).toNat = b.toNat / 100 ∧
    (Memory.read (Memory.writeBytes m a (bcdDigits b)) (a + 1)).toNat = b.toNat / 10 % 10 ∧
    (Memory.read (Memory.writeBytes m a (bcdDigits b)) (a + 2)).toNat = b.toNat % 10 := by
  have hb := b.isLt
  have hdigit {k n : Nat} (hk : (bcdDigits b)[k]? = some (BitVec.ofNat 8 n)) (hn : n < 256) :
      (Memory.read (Memory.writeBytes m a (bcdDigits b)) (a + k)).toNat = n := by
    rw [Memory.read_writeBytes_add hm ha hk, BitVec.toNat_ofNat]
    exact Nat.mod_eq_of_lt hn
  exact ⟨hdigit (k := 0) rfl (by omega), hdigit (k := 1) rfl (by omega), hdigit (k := 2) rfl (by omega)⟩

/-- Settles O35: the meaning is the fault, or one store of the three digits, whose frame and read-back are those of a
store. -/
theorem bcdStoresDigits : Obligations.BcdStoresDigits := by
  unfold Obligations.BcdStoresDigits
  refine fun x => ⟨.of_formatXKK 0xF 0x33 rfl rfl, fun s hout => ?_, fun s hm hfits => ?_⟩
  · rw [exec_ldB_of_outside hout x]
    exact ⟨_, .of_raise (Keeps.refl _ s)⟩
  · have ha : s.indexAddress + 3 ≤ Config.memSize := Nat.succ_le_succ hfits
    exact ⟨_, .of_complete (exec_ldB_of_fits hfits x) rfl ((Keeps.refl _ s).writeBytes hm ha fun _ hin => hin),
      Memory.read_writeBytes_bcdDigits hm ha (s.readV x)⟩

end Sys2Proof.Machine
end

section
/-! SUPPORT. PC, the call stack, memory and the fault record over one step (10_state.md R26, R29, R40): where an instruction
can leave PC and the stack, what it can leave in memory, and the invariants every step keeps. -/

namespace Sys2Proof.Machine

/-! ### PC and the call stack -/

/-- A byte widened with zeros is the same number (30_encoding.md R83). -/
@[simp] theorem toNat_zext16 (b : Byte) : (zext16 b).toNat = b.toNat :=
  BitVec.toNat_setWidth_of_le (by decide)

/-- The sum of an address field and a byte does not wrap (42_addressing.md R152, D19). -/
@[simp] theorem toNat_addrOf_add_zext16 (nnn : Addr12) (b : Byte) :
    (addrOf nnn + zext16 b).toNat = nnn.toNat + b.toNat := by
  have := nnn.isLt; have := b.isLt
  rw [BitVec.toNat_add, toNat_addrOf, toNat_zext16]; omega

/-- Where an instruction can leave PC and the call stack, PC being two past its address before it. -/
inductive Moves (s t : State) : Prop where
  /-- On to the next instruction. -/
  | next (hpc : t.pc = s.pc) (hstack : t.stack = s.stack)
  /-- Past the next instruction (40_control_flow.md R119). -/
  | skip (hpc : t.pc = s.pc + 2) (hstack : t.stack = s.stack)
  /-- Back to the same instruction (46_timers_misc.md R189). -/
  | wait (hpc : t.pc = s.pc - 2) (hstack : t.stack = s.stack)
  /-- To nnn, or to nnn + V0 (R113, R152). -/
  | jump (hpc : t.pc.toNat ≤ 0xFFF + 0xFF) (hstack : t.stack = s.stack)
  /-- Into a routine, from a stack that is not full (R114). -/
  | call (hfull : s.stackFull = false) (hpc : t.pc.toNat ≤ 0xFFF) (hstack : t.stack = s.stack ++ [s.pc])
  /-- Back from a routine (R111). -/
  | ret (hstack : s.stack = t.stack ++ [t.pc])

theorem Moves.of_raise {s t : State} {e : StepError} (h : raise e s = .next t) : Moves s t := by
  cases h; exact .next rfl rfl

theorem Moves.of_complete {s t u : State} (h : complete u = .next t) (hu : Moves s u) : Moves s t := by
  cases h
  cases hu with
  | next hpc hstack => exact .next hpc hstack
  | skip hpc hstack => exact .skip hpc hstack
  | wait hpc hstack => exact .wait hpc hstack
  | jump hpc hstack => exact .jump hpc hstack
  | call hfull hpc hstack => exact .call hfull hpc hstack
  | ret hstack => exact .ret hstack

theorem Moves.skipIf (s : State) (c : Bool) : Moves s (s.skipIf c) := by
  cases c
  · exact .next rfl rfl
  · exact .skip rfl rfl

/-- Every instruction moves PC and the call stack in one of these ways. -/
theorem exec_moves {i : Instr} {s t : State} (h : exec i s = .next t) : Moves s t := by
  cases i with
  | sys nnn => exact .of_raise h
  | jp nnn => exact .of_complete h (.jump (by have := nnn.isLt; simp; omega) rfl)
  | jpV0 nnn =>
    refine .of_complete h (.jump ?_ rfl)
    have := nnn.isLt; have := (s.readV 0x0#4).isLt
    rw [State.pc_setPc, toNat_addrOf_add_zext16]; omega
  | seImm _ _ | sneImm _ _ | seReg _ _ | sneReg _ _ | skp _ | sknp _ => exact .of_complete h (.skipIf s _)
  | ret =>
    rcases execRet_cases s with ⟨-, hr⟩ | ⟨rest, r, hs, hr⟩ <;> rw [hr] at h
    · exact .of_raise h
    · exact .of_complete h (.ret hs)
  | call nnn =>
    rcases execCall_cases nnn s with ⟨-, hr⟩ | ⟨hfull, hr⟩ <;> rw [hr] at h
    · exact .of_raise h
    · exact .of_complete h (.call hfull (by have := nnn.isLt; simp; omega) rfl)
  | drw x y n =>
    rcases execDrw_cases x y n s with ⟨-, -, hr⟩ | ⟨-, hr⟩ <;> rw [hr] at h
    · exact .of_raise h
    · exact .of_complete h (.next rfl rfl)
  | ldVxK x =>
    rcases execLdVxK_cases x s with ⟨k, -, -, hr⟩ | ⟨-, hr⟩ <;> rw [hr] at h
    · exact .of_complete h (.next rfl rfl)
    · exact .of_complete h (.wait rfl rfl)
  | ldB x =>
    rcases execLdB_cases x s with ⟨-, hr⟩ | ⟨-, hr⟩ <;> rw [hr] at h
    · exact .of_raise h
    · exact .of_complete h (.next rfl rfl)
  | storeRegs x =>
    rcases execStoreRegs_cases x s with ⟨-, hr⟩ | ⟨-, hr⟩ <;> rw [hr] at h
    · exact .of_raise h
    · exact .of_complete h (.next (by simp) (by simp))
  | loadRegs x =>
    rcases execLoadRegs_cases x s with ⟨-, hr⟩ | ⟨-, hr⟩ <;> rw [hr] at h
    · exact .of_raise h
    · exact .of_complete h (.next (by simp) (by simp))
  | _ => exact .of_complete h (.next rfl rfl)

/-! ### Memory and the stack bound -/

/-- Every instruction keeps the canonical form of memory: it leaves memory alone, or stores bytes. -/
theorem exec_mem_wf {i : Instr} {s t : State} (hm : Memory.wf s.mem) (h : exec i s = .next t) : Memory.wf t.mem := by
  cases i with
  | ret => rcases execRet_cases s with ⟨-, hr⟩ | ⟨rest, r, -, hr⟩ <;> rw [hr] at h <;> cases h <;> exact hm
  | call nnn => rcases execCall_cases nnn s with ⟨-, hr⟩ | ⟨-, hr⟩ <;> rw [hr] at h <;> cases h <;> exact hm
  | drw x y n => rcases execDrw_cases x y n s with ⟨-, -, hr⟩ | ⟨-, hr⟩ <;> rw [hr] at h <;> cases h <;> exact hm
  | ldVxK x => rcases execLdVxK_cases x s with ⟨k, -, -, hr⟩ | ⟨-, hr⟩ <;> rw [hr] at h <;> cases h <;> exact hm
  | ldB x =>
    rcases execLdB_cases x s with ⟨-, hr⟩ | ⟨-, hr⟩ <;> rw [hr] at h <;> cases h
    · exact hm
    · exact Memory.writeBytes_wf hm _ _
  | storeRegs x =>
    rcases execStoreRegs_cases x s with ⟨-, hr⟩ | ⟨-, hr⟩ <;> rw [hr] at h <;> cases h
    · exact hm
    · rw [State.mem_setResult, State.mem_advanceIndex]; exact Memory.writeBytes_wf hm _ _
  | loadRegs x =>
    rcases execLoadRegs_cases x s with ⟨-, hr⟩ | ⟨-, hr⟩ <;> rw [hr] at h <;> cases h
    · exact hm
    · rw [State.mem_setResult, State.mem_advanceIndex]; exact hm
  | seImm _ _ | sneImm _ _ | seReg _ _ | sneReg _ _ | skp _ | sknp _ =>
    cases h
    rw [State.mem_setResult, State.mem_skipIf]; exact hm
  | _ => cases h; exact hm

/-- Within the bound means at most the capacity, where there is one. -/
theorem State.stackWithin_iff {s : State} :
    s.stackWithin = true ↔ ∀ capacity, s.params.stackDepth = .bounded capacity → s.stack.length ≤ capacity := by
  unfold State.stackWithin
  split <;> simp [*]

/-- Full means at least the capacity, where there is one. -/
theorem State.stackFull_eq_false_iff {s : State} :
    s.stackFull = false ↔ ∀ capacity, s.params.stackDepth = .bounded capacity → s.stack.length < capacity := by
  unfold State.stackFull
  split <;> simp [*]

/-- The stack bound is kept: only a stack that is not full grows, and by one (R114). -/
theorem Moves.stackWithin {s t : State} (hm : Moves s t) (hp : t.params = s.params) (hs : s.stackWithin = true) :
    t.stackWithin = true := by
  rw [State.stackWithin_iff, hp]
  intro capacity hc
  have hlen := State.stackWithin_iff.1 hs capacity hc
  cases hm with
  | next _ hstack | skip _ hstack | wait _ hstack | jump _ hstack => rw [hstack]; exact hlen
  | call hfull _ hstack =>
    have hlt := State.stackFull_eq_false_iff.1 hfull capacity hc
    rw [hstack, List.length_append, List.length_singleton]; omega
  | ret hstack =>
    rw [hstack, List.length_append, List.length_singleton] at hlen; omega

/-! ### The invariants -/

/-- Every error of a step is in the record after it (60_exceptions.md R209). -/
theorem step_answers_ok_of_no_fault {s t : State} (h : step s = .next t) (ht : t.faultRecord = none) :
    t.lastResult = some .ok := by
  obtain ⟨u, hu, ⟨hok, -⟩ | ⟨e, -, hrec⟩⟩ := step_ends s <;> cases hu.symm.trans h
  · exact hok
  · simp [hrec] at ht

/-- Settles O47: memory and the stack bound are kept by every instruction, and the record holds every error. -/
theorem stepKeepsInvariant : Obligations.StepKeepsInvariant := by
  unfold Obligations.StepKeepsInvariant
  rintro s t ⟨hm, hs, -⟩ h
  have hrec : t.faultRecord = none → t.lastResult = none ∨ t.lastResult = some .ok :=
    fun ht => .inr (step_answers_ok_of_no_fault h ht)
  rcases step_cases s with ⟨-, hr⟩ | ⟨w, -, -, ⟨-, hr⟩ | ⟨i, -, hr⟩⟩ <;> rw [hr] at h
  · cases h; exact ⟨hm, hs, hrec⟩
  · cases h; exact ⟨hm, hs, hrec⟩
  · exact ⟨exec_mem_wf (s := s.advancePc) hm h, (exec_moves h).stackWithin (exec_keeps h).params hs, hrec⟩

/-- With PC two past an address of a word in memory, an instruction leaves PC and the return addresses in range. -/
theorem Moves.pcBounded {s t : State} (hm : Moves s t) (hlo : 2 ≤ s.pc.toNat) (hhi : s.pc.toNat ≤ 0x1000)
    (hs : ∀ a ∈ s.stack, a.toNat ≤ 0x1000) : t.PcBounded := by
  cases hm with
  | next hpc hstack => rw [State.PcBounded, hpc, hstack]; exact ⟨by omega, hs⟩
  | skip hpc hstack => rw [State.PcBounded, hpc, hstack]; exact ⟨by bv_omega, hs⟩
  | wait hpc hstack => rw [State.PcBounded, hpc, hstack]; exact ⟨by bv_omega, hs⟩
  | jump hpc hstack => rw [State.PcBounded, hstack]; exact ⟨hpc, hs⟩
  | call _ hpc hstack =>
    rw [State.PcBounded, hstack]
    refine ⟨by omega, fun a ha => ?_⟩
    rcases List.mem_append.1 ha with ha | ha
    · exact hs a ha
    · rw [List.mem_singleton.1 ha]; exact hhi
  | ret hstack =>
    rw [hstack] at hs
    exact ⟨(hs t.pc (by simp)).trans (by decide), fun a ha => hs a (List.mem_append_left _ ha)⟩

/-- Settles O48: a fetch above 0xFFE leaves PC, and past any other fetch PC is at most 0x1000 before it moves. -/
theorem stepKeepsPcBounded : Obligations.StepKeepsPcBounded := by
  unfold Obligations.StepKeepsPcBounded
  rintro s t ⟨hpc, hs⟩ h
  rcases step_cases s with ⟨-, hr⟩ | ⟨w, hfe, -, hr⟩
  · rw [hr] at h; cases h; exact ⟨hpc, hs⟩
  · have hadv : s.advancePc.pc.toNat = s.pc.toNat + 2 := by rw [State.pc_advancePc]; bv_omega
    have hmoves : Moves s.advancePc t := by
      rcases hr with ⟨-, hr⟩ | ⟨i, -, hr⟩ <;> rw [hr] at h
      · exact .of_raise h
      · exact exec_moves h
    exact hmoves.pcBounded (by omega) (by omega) hs

end Sys2Proof.Machine
end

section
/-! SUPPORT. The decoder and the encoder as inverses, and the decoder against the opcode table (30_encoding.md R84, R85,
R92, R94). -/

namespace Sys2Proof

/-- Settles O2: family by family, decode finds in the word the operands encode put there. -/
theorem decodeInvertsEncode : Obligations.DecodeInvertsEncode := by
  unfold Obligations.DecodeInvertsEncode
  exact fun i hi => decode_encode hi

/-- Settles O3: family by family, the operands decode takes from the word give the word back. -/
theorem encodeInvertsDecode : Obligations.EncodeInvertsDecode := by
  unfold Obligations.EncodeInvertsDecode
  exact fun w i h => encode_of_decode h

/-- Settles O4: each family rejects exactly the sub-opcodes on the list. -/
theorem decodeRejectsExactly : Obligations.DecodeRejectsExactly := by
  unfold Obligations.DecodeRejectsExactly
  exact decode_eq_error

/-- Settles O1: each word is evaluated. -/
theorem specWordsDecode : Obligations.SpecWordsDecode := by
  unfold Obligations.SpecWordsDecode
  exact ⟨rfl, rfl, rfl, rfl, rfl, rfl, rfl, rfl, rfl, rfl, rfl, rfl, rfl, rfl, rfl, rfl, rfl⟩

/-! ### The opcode table -/

/-- The word of every instruction fits the instruction's row. -/
theorem encode_fits_tableRow (i : Instr) : Laws.TableFit.Statement i := by
  cases i with
  | cls => exact Laws.TableFit.cls
  | ret => exact Laws.TableFit.ret
  | sys _ | jp _ | call _ | ldI _ | jpV0 _ => exact Laws.TableFit.fit_ofNNN _ _
  | seImm _ _ | sneImm _ _ | ldImm _ _ | addImm _ _ | rnd _ _ => exact Laws.TableFit.fit_ofXKK _ _ _
  | drw x y n => exact Laws.TableFit.drw x y n
  | skp _ | sknp _ | ldVxDt _ | ldVxK _ | ldDtVx _ | ldStVx _ | addI _ | ldF _ | ldB _ | storeRegs _ | loadRegs _ =>
    exact Laws.TableFit.fit_ofXOP _ _ _
  | _ => exact Laws.TableFit.fit_ofXYN _ _ _ _

/-- A word that fits a row has the row's bits wherever the mask is set. -/
theorem extractLsb'_of_fits {w mask row : Word} (h : w &&& mask = row) (lo len : Nat)
    (hmask : mask.extractLsb' lo len = BitVec.allOnes len) : w.extractLsb' lo len = row.extractLsb' lo len := by
  rw [← h, BitVec.extractLsb'_and, hmask, BitVec.and_allOnes]

/-- What a row that fixes the family says of its words. -/
theorem Word.fields_of_fits_family {w row : Word} (h : w &&& 0xF000#16 = row) : w.family = row.family :=
  extractLsb'_of_fits h 12 4 rfl

/-- What a row that fixes the family and n says of its words. -/
theorem Word.fields_of_fits_n {w row : Word} (h : w &&& 0xF00F#16 = row) :
    w.family = row.family ∧ w.fieldN = row.fieldN :=
  ⟨extractLsb'_of_fits h 12 4 rfl, extractLsb'_of_fits h 0 4 rfl⟩

/-- What a row that fixes the family and kk says of its words. -/
theorem Word.fields_of_fits_kk {w row : Word} (h : w &&& 0xF0FF#16 = row) :
    w.family = row.family ∧ w.fieldY = row.fieldY ∧ w.fieldN = row.fieldN :=
  ⟨extractLsb'_of_fits h 12 4 rfl, extractLsb'_of_fits h 4 4 rfl, extractLsb'_of_fits h 0 4 rfl⟩

/-- A word of family 0 decodes within the SYS row but for the words of CLS and RET (R85). -/
theorem decode_of_family0 {w : Word} (hf : w.family = 0x0#4) :
    (∃ nnn, decode w = .ok (.sys nnn)) ∨ decode w = .ok .cls ∧ w = 0x00E0#16 ∨ decode w = .ok .ret ∧ w = 0x00EE#16 := by
  have hd : decode w = .ok (decodeFamily0 (fieldNNN w.fieldX w.fieldY w.fieldN)) := by rw [decode, hf]; rfl
  have hw : encode (decodeFamily0 (fieldNNN w.fieldX w.fieldY w.fieldN)) = w := (encode_of_decode hd).1
  rw [hd]
  revert hw
  unfold decodeFamily0
  split
  · exact fun hw => .inr (.inl ⟨rfl, hw.symm⟩)
  split
  · exact fun hw => .inr (.inr ⟨rfl, hw.symm⟩)
  · exact fun _ => .inl ⟨_, rfl⟩

/-- A word that fits a row decodes within that row, but for the two words that come before the SYS row (R84, R85). -/
theorem decode_of_fits_tableRow {w : Word} {j : Instr} (h : w &&& (tableRow j).1 = (tableRow j).2) :
    ∃ i, decode w = .ok i ∧
      (tableRow i = tableRow j ∨ tableRow j = (0xF000#16, 0x0000#16) ∧ (w = 0x00E0#16 ∨ w = 0x00EE#16)) := by
  cases j <;> simp only [tableRow] at h
  case cls | ret =>
    obtain rfl := (BitVec.and_allOnes (x := w)).symm.trans h
    exact ⟨_, rfl, .inl rfl⟩
  case sys nnn =>
    rcases decode_of_family0 (Word.fields_of_fits_family h) with ⟨nnn, hd⟩ | ⟨hd, hw⟩ | ⟨hd, hw⟩
    · exact ⟨_, hd, .inl rfl⟩
    · exact ⟨_, hd, .inr ⟨rfl, .inl hw⟩⟩
    · exact ⟨_, hd, .inr ⟨rfl, .inr hw⟩⟩
  case jp | call | seImm | sneImm | ldImm | addImm | ldI | jpV0 | rnd | drw =>
    have hf := Word.fields_of_fits_family h
    refine ⟨_, by rw [decode, hf]; rfl, ?_⟩
    exact .inl rfl
  case seReg | ldReg | orReg | andReg | xorReg | addReg | subReg | shr | subnReg | shl | sneReg =>
    obtain ⟨hf, hn⟩ := Word.fields_of_fits_n h
    refine ⟨_, by rw [decode, hf, hn]; rfl, ?_⟩
    exact .inl rfl
  all_goals
    obtain ⟨hf, hy, hn⟩ := Word.fields_of_fits_kk h
    refine ⟨_, by rw [decode, hf, hy, hn]; rfl, ?_⟩
    exact .inl rfl

/-- Settles O5: a decoded word is an encoding, which fits its row, and the bits a row fixes decide the instruction. -/
theorem decodeFollowsTable : Obligations.DecodeFollowsTable := by
  unfold Obligations.DecodeFollowsTable
  refine ⟨fun w i hd => ?_, fun w j h => decode_of_fits_tableRow h⟩
  rw [← (encode_of_decode hd).1]
  exact encode_fits_tableRow i

end Sys2Proof
end

section
/-! SUPPORT. Writers (10_state.md R21 to R23, R35, R36, 43_random.md R161): what the frame of every instruction says of
registers, draws, keys and configuration, and the value every flag writer leaves in VF. -/

namespace Sys2Proof.Machine

/-! ### Registers and draws -/

/-- Settles O50: by the frame of every instruction. -/
theorem registerWriters : Obligations.RegisterWriters := by
  unfold Obligations.RegisterWriters
  intro i s t r h hr
  exact (exec_keeps h).regs r (Bool.not_eq_true _ ▸ hr)

/-- Settles O55: by the frame of every instruction. -/
theorem onlyRandomDraws : Obligations.OnlyRandomDraws := by
  unfold Obligations.OnlyRandomDraws
  intro i s t h hi
  exact (exec_keeps h).draws fun ⟨x, kk, hx⟩ => hi x kk hx

/-! ### Flags -/

theorem toNat_flagByte_le_one (c : Bool) : (flagByte c).toNat ≤ 1 := by
  cases c <;> decide

/-- The flag a draw leaves in VF. -/
theorem State.readV_VF_finishDraw (s : State) (d : DrawState) : (s.finishDraw d).readV 0xF = flagByte d.collision :=
  (State.readV_finishDraw s d 0xF).trans (if_pos rfl)

/-- The flag that is written last is in VF (R140). -/
theorem State.readV_VF_writeWithFlag (s : State) (x : RegIx) (b : Byte) (f : Bool) :
    (s.writeWithFlag x b f).readV 0xF = flagByte f :=
  (State.readV_writeWithFlag s x b f 0xF).trans (if_pos rfl)

/-- A flag writer that completes has written a flag last, into VF (R23). -/
theorem exec_writes_flag {i : Instr} {s t : State} (hi : writesFlag i = true) (h : exec i s = .next t)
    (hok : t.lastResult = some .ok) : ∃ c, t.readV 0xF = flagByte c := by
  cases i with
  | addReg _ _ | subReg _ _ | subnReg _ _ | shr _ _ | shl _ _ =>
    cases h
    exact ⟨_, State.readV_VF_writeWithFlag _ _ _ _⟩
  | drw x y n =>
    rcases execDrw_cases x y n s with ⟨-, -, hr⟩ | ⟨-, hr⟩ <;> rw [hr] at h <;> cases h
    · cases hok
    · exact ⟨_, State.readV_VF_finishDraw _ _⟩
  | _ => cases hi

/-- Settles O22: a flag writer writes the flag last, and the frame keeps VF where it is not written. -/
theorem flagSideEffects : Obligations.FlagSideEffects := by
  unfold Obligations.FlagSideEffects
  intro i s t h
  refine ⟨fun hi hok => ?_, registerWriters i s t 0xF h⟩
  obtain ⟨c, hc⟩ := exec_writes_flag hi h hok
  rw [hc]
  exact toNat_flagByte_le_one c

/-! ### Keys and configuration -/

/-- A step changes neither the key flags nor the configuration (R35, R36). -/
theorem step_keeps_keys_cfg_params {s t : State} (h : step s = .next t) :
    t.keys = s.keys ∧ t.cfg = s.cfg ∧ t.params = s.params := by
  rcases step_keeps h with hk | ⟨i, -, hk⟩ <;> exact ⟨hk.keys, hk.cfg, hk.params⟩

/-- Settles O52: by the frame of a step, and transaction by transaction for the host's. -/
theorem keysAndConfigurationConstant : Obligations.KeysAndConfigurationConstant := by
  unfold Obligations.KeysAndConfigurationConstant
  intro tr s t h
  cases tr with
  | step =>
    obtain ⟨hkeys, hcfg, hparams⟩ := step_keeps_keys_cfg_params h
    exact ⟨hcfg, hparams, fun _ => hkeys⟩
  | writeKeys updates =>
    rw [transact_writeKeys] at h
    cases h
    exact ⟨rfl, rfl, fun hne => absurd rfl (hne updates)⟩
  | tick | writeDelayTimer _ | writeSoundTimer _ | read _ =>
    cases h
    exact ⟨rfl, rfl, fun _ => rfl⟩

end Sys2Proof.Machine
end

section
/-! SUPPORT. The key flags are in no meaning but those of Ex9E, ExA1 and Fx0A (10_state.md R35): the operations of the other
meanings do not see them, and leave replaced flags replaced. -/

namespace Sys2Proof.Machine

/-- The state with other key flags. -/
def State.withKeyFlags (s : State) (keys : Vector Bool 16) : State := { s with keys := keys }

/-- The result with other key flags in its next state. -/
def Result.withKeyFlags (r : Result) (keys : Vector Bool 16) : Result :=
  match r with
  | .next t => .next (t.withKeyFlags keys)
  | .fault e => .fault e
  | .refused e => .refused e

section
variable (s : State) (keys : Vector Bool 16)

@[simp] theorem State.mem_withKeyFlags : (s.withKeyFlags keys).mem = s.mem := rfl
@[simp] theorem State.cfg_withKeyFlags : (s.withKeyFlags keys).cfg = s.cfg := rfl
@[simp] theorem State.indexAddress_withKeyFlags : (s.withKeyFlags keys).indexAddress = s.indexAddress := rfl
@[simp] theorem State.readV_withKeyFlags (x : RegIx) : (s.withKeyFlags keys).readV x = s.readV x := rfl
@[simp] theorem State.regsUpTo_withKeyFlags (x : RegIx) : (s.withKeyFlags keys).regsUpTo x = s.regsUpTo x := rfl
@[simp] theorem State.stackFull_withKeyFlags : (s.withKeyFlags keys).stackFull = s.stackFull := rfl

@[simp] theorem State.pop_withKeyFlags :
    (s.withKeyFlags keys).pop = s.pop.map fun p => (p.1, p.2.withKeyFlags keys) := by
  unfold State.pop
  cases h : s.stack.getLast? <;> simp [State.withKeyFlags, h]

@[simp] theorem State.skipIf_withKeyFlags (c : Bool) :
    (s.withKeyFlags keys).skipIf c = (s.skipIf c).withKeyFlags keys := by
  cases c <;> rfl

@[simp] theorem State.advanceIndex_withKeyFlags (x : RegIx) :
    (s.withKeyFlags keys).advanceIndex x = (s.advanceIndex x).withKeyFlags keys := by
  unfold State.advanceIndex
  rw [State.cfg_withKeyFlags]
  split <;> rfl

/-- The meaning of every instruction that reads no key commutes with replacing the key flags: what decides its outcome
does not see them. -/
theorem exec_withKeyFlags {i : Instr} (hi : readsKeys i = false) :
    exec i (s.withKeyFlags keys) = Result.withKeyFlags (exec i s) keys := by
  cases i with
  | skp _ | sknp _ | ldVxK _ => cases hi
  | seImm _ _ | sneImm _ _ | seReg _ _ | sneReg _ _ => exact congrArg complete (State.skipIf_withKeyFlags s keys _)
  | ret =>
    simp only [exec, execRet, State.pop_withKeyFlags]
    cases s.pop <;> rfl
  | call nnn =>
    cases hf : s.stackFull <;> simp only [exec, execCall, State.stackFull_withKeyFlags, hf] <;> rfl
  | drw x y n =>
    simp only [exec, execDrw, State.mem_withKeyFlags, State.indexAddress_withKeyFlags]
    cases memRead s.mem s.indexAddress n.toNat <;> rfl
  | ldB x =>
    simp only [exec, execLdB, State.mem_withKeyFlags, State.indexAddress_withKeyFlags, State.readV_withKeyFlags]
    cases memWrite s.mem s.indexAddress (bcdDigits (s.readV x)) <;> rfl
  | storeRegs x =>
    simp only [exec, execStoreRegs, State.mem_withKeyFlags, State.indexAddress_withKeyFlags, State.regsUpTo_withKeyFlags]
    cases memWrite s.mem s.indexAddress (s.regsUpTo x) with
    | none => rfl
    | some m => exact congrArg complete (State.advanceIndex_withKeyFlags { s with mem := m } keys x)
  | loadRegs x =>
    simp only [exec, execLoadRegs, State.mem_withKeyFlags, State.indexAddress_withKeyFlags]
    cases memRead s.mem s.indexAddress (x.toNat + 1) with
    | none => rfl
    | some bytes => exact congrArg complete (State.advanceIndex_withKeyFlags (s.writeRegs bytes) keys x)
  | _ => rfl

end

/-- Settles O57: every meaning but the three that read a key commutes with replacing the key flags. -/
theorem keysReadOnlyByKeyInstructions : Obligations.KeysReadOnlyByKeyInstructions := by
  unfold Obligations.KeysReadOnlyByKeyInstructions
  intro i s t keys hi h
  exact (exec_withKeyFlags s keys hi).trans (congrArg (Result.withKeyFlags · keys) h)

end Sys2Proof.Machine
end

section
/-! SUPPORT. Errors, runs of transactions and the tick (10_state.md R52, 30_encoding.md R91, 60_exceptions.md R209, R211,
R212): an error on record stays, an execution error is precise, and a tick changes the timers alone. -/

namespace Sys2Proof.Machine

/-- Every run answers a next state and keeps a recorded fault (R211). -/
theorem runTransactions_ends (ts : List Transaction) (s : State) :
    ∃ t, runTransactions ts s = .next t ∧ ∀ e, s.faultRecord = some e → t.faultRecord = some e := by
  induction ts generalizing s with
  | nil => exact ⟨s, rfl, fun _ h => h⟩
  | cons tr rest ih =>
    obtain ⟨u, hu, hsu⟩ := transact_ends tr s
    obtain ⟨t, ht, hut⟩ := ih u
    refine ⟨t, ?_, fun e he => hut e (hsu e he)⟩
    rw [runTransactions, hu]
    exact ht

/-- What the answer of a step says of the record: an answered error was put in unless one was there, and with Ok the
record is as it was (R209). -/
theorem step_record {s t : State} (h : step s = .next t) :
    (∀ e, t.lastResult = some (.err e) → t.faultRecord = s.faultRecord.or (some e)) ∧
      (t.lastResult = some .ok → t.faultRecord = s.faultRecord) := by
  obtain ⟨u, hu, ⟨hans, hrec⟩ | ⟨e, hans, hrec⟩⟩ := step_ends s <;> cases hu.symm.trans h <;> rw [hans]
  · exact ⟨nofun, fun _ => hrec⟩
  · refine ⟨?_, nofun⟩
    rintro _ ⟨⟩
    exact hrec

/-- Settles O39: each transaction goes to its end and keeps the record, and the answer of a step decides its record. -/
theorem faultRecordKeepsFirstError : Obligations.FaultRecordKeepsFirstError := by
  unfold Obligations.FaultRecordKeepsFirstError
  refine ⟨runTransactions_ends, fun s t h => ?_⟩
  obtain ⟨herr, hok⟩ := step_record h
  exact ⟨fun e hs he => by rw [herr e he, hs]; rfl, hok⟩

/-- A run that ends with a step ends as that step does from where the transactions before it lead. -/
theorem exists_last_step {before : List Transaction} {s t : State}
    (h : runTransactions (before ++ [.step]) s = .next t) : ∃ u, step u = .next t := by
  obtain ⟨u, hu, -⟩ := runTransactions_ends before s
  rw [runTransactions_append hu] at h
  obtain ⟨v, hv, -⟩ := step_ends u
  refine ⟨u, ?_⟩
  rw [runTransactions, transact, hv] at h
  exact hv.trans h

/-- Settles O40: the answered error is on record, and no continuation takes it off. -/
theorem faultedRunNeverSuccessful : Obligations.FaultedRunNeverSuccessful := by
  unfold Obligations.FaultedRunNeverSuccessful
  rintro before after s t e h he ⟨v, hv, hnone⟩
  obtain ⟨u, hu⟩ := exists_last_step h
  obtain ⟨e', he'⟩ : ∃ e', t.faultRecord = some e' := by
    rw [(step_record hu).1 e he]
    cases u.faultRecord <;> exact ⟨_, rfl⟩
  rw [List.append_cons, runTransactions_append h] at hv
  obtain ⟨w, hw, hkeep⟩ := runTransactions_ends after t
  cases hw.symm.trans hv
  cases hnone.symm.trans (hkeep e' he')

/-- A tick changes the two timers alone (R212). -/
theorem Keeps.tick {τ : Touch} {s u : State} (h : Keeps τ s u) (hd : τ.delay) (hs : τ.sound) : Keeps τ s u.tick :=
  { h with delay := absurd hd, sound := absurd hs }

/-- Settles O41: a tick is one write of each timer, each down by one and saturating at 0. -/
theorem tickSaturatesAtZero : Obligations.TickSaturatesAtZero := by
  unfold Obligations.TickSaturatesAtZero
  intro s
  exact ⟨s.tick, rfl, (Keeps.refl _ s).tick trivial trivial, rfl, rfl, toNat_tickTimer s.dt, toNat_tickTimer s.st⟩

/-- Settles O38: of all that exec can be, only an error raised over the state it began with answers an error. -/
theorem errorsArePrecise : Obligations.ErrorsArePrecise := by
  unfold Obligations.ErrorsArePrecise
  intro i s t e h he
  rcases exec_ends i s with ⟨u, hu, -⟩ | ⟨e', hr⟩
  · cases hu.symm.trans h
    cases he
  · cases hr.symm.trans h
    cases he
    rw [hr]
    exact .of_raise (Keeps.refl _ s)

end Sys2Proof.Machine
end

section
/-! SUPPORT. Construction and reset (70_reset_and_hazards.md R230 to R233): the outcomes of a construction, the fields the
reset policy decides, and the invariants along every run from a constructed machine. -/

namespace Sys2Proof.Machine

/-! ### Outcomes -/

/-- An image that fits gives a machine (R233). -/
theorem construct_of_fits {c : Construction} {image : List Byte} (hi : c.image = .bytes image)
    (hlen : image.length ≤ 3584) : construct c = .next (constructed c image) := by
  simp only [construct, hi]
  exact if_neg (not_lt.2 hlen)

/-- An image that does not fit gives none (R233, D15). -/
theorem construct_of_too_long {c : Construction} {image : List Byte} (hi : c.image = .bytes image)
    (hlen : image.length > 3584) : construct c = .fault (.programTooLarge image.length) := by
  simp only [construct, hi]
  exact if_pos hlen

/-- A construction that gives a machine had an image that fits. -/
theorem construct_eq_next {c : Construction} {s : State} (h : construct c = .next s) :
    ∃ image, c.image = .bytes image ∧ image.length ≤ 3584 ∧ s = constructed c image := by
  cases hi : c.image with
  | unreadable cause => simp [construct, hi] at h
  | bytes image =>
    rcases Nat.lt_or_ge 3584 image.length with hlen | hlen
    · rw [construct_of_too_long hi hlen] at h; cases h
    · rw [construct_of_fits hi hlen] at h; cases h
      exact ⟨image, rfl, hlen, rfl⟩

/-! ### Memory -/

section
variable (font : Vector Byte 80) {image : List Byte} (hlen : image.length ≤ 3584)
include hlen

/-- FONT stands at 0 (20_memory.md R62). -/
theorem read_loadMemory_font {a : Nat} (ha : a < 80) : Memory.read (loadMemory font.toList image) a = font[a] := by
  rw [read_loadMemory font hlen, if_pos ha, List.getD_eq_getElem _ _ (by simpa using ha), Vector.getElem_toList]

/-- Byte k of the image stands at 0x200 + k (R64, R232). -/
theorem read_loadMemory_image {k : Nat} (hk : k < image.length) :
    Memory.read (loadMemory font.toList image) (0x200 + k) = image[k] := by
  rw [read_loadMemory font hlen, if_neg (by omega), if_pos (by omega), Nat.add_sub_cancel_left,
    List.getD_eq_getElem _ _ hk]

/-- Every byte outside FONT and the image is 0 (R232). -/
theorem read_loadMemory_zero {a : Nat} (ha : 80 ≤ a) (ha' : a < 0x200 ∨ 0x200 + image.length ≤ a) :
    Memory.read (loadMemory font.toList image) a = 0 := by
  rw [read_loadMemory font hlen, if_neg (by omega)]
  split
  · exact List.getD_eq_default _ _ (by omega)
  · rfl

end

/-! ### The reset policy -/

/-- Under the default policy the fields it decides are those of the reset state (R231, D2). -/
theorem constructed_of_zero {c : Construction} (hp : c.resetPolicy = .zero) (image : List Byte) :
    constructed c image =
      { State.reset with mem := loadMemory c.font.toList image, cfg := c.cfg, params := c.params } := by
  rw [constructed, hp]; rfl

/-- Under a draw they are the drawn values (00_scope.md R14). -/
theorem constructed_of_draw {c : Construction} {d : InitialDraw} (hp : c.resetPolicy = .draw d) (image : List Byte) :
    constructed c image =
      { State.reset with
        mem := loadMemory c.font.toList image, cfg := c.cfg, params := c.params
        v := d.v, i := d.i, dt := d.dt, st := d.st, fb := d.fb, keys := d.keys } := by
  rw [constructed, hp]; rfl

/-- Settles O44: the policy leaves what construction lays out, and decides the other fields. -/
theorem constructionLaysOutMemory : Obligations.ConstructionLaysOutMemory := by
  unfold Obligations.ConstructionLaysOutMemory
  intro c image hi hlen
  obtain ⟨hmem, hpc, hstack, hrec, -, hcfg, hparams⟩ := constructed_fixed c image
  refine ⟨_, construct_of_fits hi hlen, ?_⟩
  rw [hmem]
  refine ⟨fun a ha => read_loadMemory_font _ hlen ha, fun a ha ha' => read_loadMemory_zero _ hlen ha (.inl ha'),
    fun k hk => read_loadMemory_image _ hlen hk, fun a ha _ => read_loadMemory_zero _ hlen (by omega) (.inr ha),
    hpc, hstack, hcfg, hparams, hrec, fun hp => ?_, fun d hp => ?_⟩
  · rw [constructed_of_zero hp]
    exact ⟨fun r => Vector.getElem_replicate _, rfl, rfl, rfl, Framebuffer.pixel_clear,
      fun k hk => by simp [State.reset, hk]⟩
  · rw [constructed_of_draw hp]
    exact ⟨fun r => Vector.getElem?_eq_getElem _, rfl, rfl, rfl, rfl, rfl⟩

/-- The first word of an empty image is 0x0000 (R233). -/
theorem wordNumber_constructed_nil (c : Construction) : (constructed c []).wordNumber = 0 := by
  obtain ⟨hmem, hpc, -⟩ := constructed_fixed c []
  have hread (a : Nat) (ha : 0x200 ≤ a) : Memory.read (loadMemory c.font.toList []) a = 0 :=
    read_loadMemory_zero _ (Nat.zero_le _) (by omega) (.inr ha)
  rw [State.wordNumber, hmem, hpc, hread _ (by decide), hread _ (by decide)]
  rfl

/-- Settles O45: the image decides the outcome, and the first word of an empty image is SYS 0x000. -/
theorem constructionOutcomes : Obligations.ConstructionOutcomes := by
  unfold Obligations.ConstructionOutcomes
  intro c
  refine ⟨fun cause hi => ?_, fun image hi hlen => construct_of_too_long hi hlen,
    fun image hi hlen => ⟨_, construct_of_fits hi hlen⟩, fun t hi ht => ?_⟩
  · simp only [construct, hi]
  · rw [construct_of_fits hi (Nat.zero_le _)] at ht
    cases ht
    obtain ⟨-, hpc, -⟩ := constructed_fixed c []
    have hstep : step (constructed c []) =
        raise (.unsupportedInstruction 0x0000 (constructed c []).pc) (constructed c []).advancePc :=
      step_of_decode_sys (nnn := 0) (by rw [hpc]; decide) (wordNumber_constructed_nil c).symm rfl
    rw [hpc] at hstep
    obtain ⟨u, hu, hupc⟩ := raises_of_raise_advancePc hstep
    exact ⟨u, hu, by rw [hupc, hpc]; rfl⟩

/-! ### The invariants along a run -/

/-- Settles O46: memory lists nothing, the stack is empty and no step has answered. -/
theorem invariantsHoldAtReset : Obligations.InvariantsHoldAtReset := by
  unfold Obligations.InvariantsHoldAtReset
  exact ⟨⟨reset_mem_wf, rfl, fun _ => .inl rfl⟩, by decide, nofun⟩

/-- A constructed machine has the invariants. -/
theorem constructed_invariants (c : Construction) (image : List Byte) :
    (constructed c image).Inv ∧ (constructed c image).PcBounded := by
  obtain ⟨hmem, hpc, hstack, -, hres, -, -⟩ := constructed_fixed c image
  refine ⟨⟨?_, ?_, fun _ => .inl hres⟩, ?_, ?_⟩
  · rw [hmem]; exact loadMemory_wf _ _
  · rw [State.stackWithin_iff, hstack]; exact fun _ _ => Nat.zero_le _
  · rw [hpc]; decide
  · rw [hstack]; exact fun _ ha => absurd ha List.not_mem_nil

/-- Every transaction keeps the invariants: a step does, and the host's others change no field the invariants speak of. -/
theorem transact_keeps_invariants {tr : Transaction} {s t : State} (hs : s.Inv ∧ s.PcBounded)
    (h : transact tr s = .next t) : t.Inv ∧ t.PcBounded := by
  cases tr with
  | step => exact ⟨stepKeepsInvariant s t hs.1 h, stepKeepsPcBounded s t hs.2 h⟩
  | writeKeys updates =>
    rw [transact_writeKeys] at h
    cases h
    exact hs
  | tick | writeDelayTimer _ | writeSoundTimer _ | read _ =>
    cases h
    exact hs

/-- Every run keeps the invariants. -/
theorem runTransactions_keeps_invariants {ts : List Transaction} {s t : State} (hs : s.Inv ∧ s.PcBounded)
    (h : runTransactions ts s = .next t) : t.Inv ∧ t.PcBounded := by
  induction ts generalizing s with
  | nil => cases h; exact hs
  | cons tr rest ih =>
    obtain ⟨u, hu, -⟩ := transact_ends tr s
    rw [runTransactions, hu] at h
    exact ih (transact_keeps_invariants hs hu) h

/-- Settles O49: a constructed machine has the invariants, and every transaction keeps them. -/
theorem runsFromConstructionKeepInvariants : Obligations.RunsFromConstructionKeepInvariants := by
  unfold Obligations.RunsFromConstructionKeepInvariants
  intro c s t ts hc h
  obtain ⟨image, -, -, rfl⟩ := construct_eq_next hc
  exact runTransactions_keeps_invariants (constructed_invariants c image) h

end Sys2Proof.Machine
end

section
/-! SUPPORT. Fetch, jumps, calls and returns (30_encoding.md R87, 40_control_flow.md R111 to R114, 42_addressing.md R152): the
fetch bound after a jump, and the fixed points of a step (70_reset_and_hazards.md R236). -/

namespace Sys2Proof.Machine

/-! ### The fetch bound -/

/-- A fetch above 0xFFE raises its error and changes nothing (R87, D13). -/
theorem exists_raises_invalidPc {s : State} {a : Word} (ha : s.pc = a) (h : a.toNat > 0xFFE) :
    ∃ t, Raises (step s) (.invalidProgramCounter a) {} s t := by
  subst ha
  rw [step_of_invalidPc h]
  exact ⟨_, .of_raise (Keeps.refl _ s)⟩

/-- Any other fetch gives the word at PC (R87). -/
theorem State.fetch_of_le {s : State} (h : s.pc.toNat ≤ 0xFFE) : s.fetch = some (Memory.readWord s.mem s.pc.toNat) :=
  if_neg (not_lt.2 h)

/-- Settles O7: the fetch answers none exactly above 0xFFE. -/
theorem fetchBoundRaises : Obligations.FetchBoundRaises := by
  unfold Obligations.FetchBoundRaises
  exact fun s => ⟨exists_raises_invalidPc rfl, fun h => ⟨_, State.fetch_of_le h, s.toNat_readWord⟩⟩

/-! ### Jumps -/

/-- A meaning that ends with one write of PC changes PC alone, and the next step fails where the fetch bound says. -/
theorem exists_completes_of_setPc {i : Instr} {s : State} {a : Word} (h : exec i s = complete (s.setPc a)) :
    ∃ t, Completes i { pc := True } s t ∧ t.pc = a ∧
      (a.toNat > 0xFFE → ∃ u, Raises (step t) (.invalidProgramCounter a) {} t u) :=
  ⟨_, .of_complete h rfl ((Keeps.refl _ s).setPc trivial a), rfl, exists_raises_invalidPc rfl⟩

/-- Settles O13: the meaning is one write of PC, by the word of the address field. -/
theorem jpSetsPc : Obligations.JpSetsPc := by
  unfold Obligations.JpSetsPc
  refine fun nnn => ⟨.of_wellFormed rfl (Word.toNat_ofNNN 0x1#4 nnn), fun s => ?_⟩
  obtain ⟨t, ht, hpc, hnext⟩ := exists_completes_of_setPc (i := .jp nnn) (s := s) rfl
  refine ⟨t, ht, by rw [hpc, toNat_addrOf], fun hn => ?_⟩
  rw [← toNat_addrOf] at hn
  obtain ⟨u, hu⟩ := hnext (by rw [hn]; decide)
  rw [eq_ofNat_of_toNat_eq hn] at hu
  exact ⟨u, hu⟩

/-- Settles O24: the meaning is one write of PC, by a sum that does not wrap. -/
theorem computedJumpAddsV0 : Obligations.ComputedJumpAddsV0 := by
  unfold Obligations.ComputedJumpAddsV0
  refine fun nnn => ⟨.of_wellFormed rfl (Word.toNat_ofNNN 0xB#4 nnn), fun s => ?_⟩
  obtain ⟨t, ht, hpc, hnext⟩ := exists_completes_of_setPc (i := .jpV0 nnn) (s := s) rfl
  rw [← hpc] at hnext
  have hsum : t.pc.toNat = nnn.toNat + (s.readV 0x0).toNat := by rw [hpc, toNat_addrOf_add_zext16]; rfl
  exact ⟨t, ht, hsum, fun hgt => hnext (hsum ▸ hgt)⟩

/-! ### SYS, CALL and RET -/

/-- Settles O12: the meaning is one raise over the state, with the word of the instruction. -/
theorem sysRaisesUnsupported : Obligations.SysRaisesUnsupported := by
  unfold Obligations.SysRaisesUnsupported
  have hword (nnn : Addr12) : (encode (.sys nnn)).toNat = nnn.toNat := by simp [encode, Word.toNat_ofNNN]
  refine ⟨fun nnn hcls hret => .of_wellFormed (by simpa [Instr.wellFormed] using ⟨hcls, hret⟩) (hword nnn), fun nnn s w hw => ?_⟩
  obtain rfl : w = encode (.sys nnn) := BitVec.eq_of_toNat_eq (hw.trans (hword nnn).symm)
  exact ⟨_, .of_raise (Keeps.refl _ s)⟩

/-- RET with nothing to pop (R111, D14). -/
theorem exec_ret_of_nil {s : State} (h : s.stack = []) :
    exec .ret s = raise (.callStackUnderflow s.fetchAddress) s := by
  rcases execRet_cases s with ⟨-, hr⟩ | ⟨rest, r, hs, -⟩
  · exact hr
  · simp [h] at hs

/-- RET with r on top (R111). -/
theorem exec_ret_of_append {s : State} {rest : List Word} {r : Word} (h : s.stack = rest ++ [r]) :
    exec .ret s = complete ({ s with stack := rest }.setPc r) := by
  rcases execRet_cases s with ⟨hs, -⟩ | ⟨rest', r', hs, hr⟩
  · simp [h] at hs
  · obtain ⟨rfl, hrr⟩ := List.append_inj' (h.symm.trans hs) rfl
    cases hrr
    exact hr

/-- Settles O11: the meaning is the error on an empty stack, else one write of the stack and of PC. -/
theorem retPopsOrUnderflows : Obligations.RetPopsOrUnderflows := by
  unfold Obligations.RetPopsOrUnderflows
  refine ⟨.of_wellFormed rfl rfl, fun s hs => ?_, fun s rest r hs => ?_⟩
  · rw [exec_ret_of_nil hs]
    exact ⟨_, .of_raise (Keeps.refl _ s)⟩
  · exact ⟨_, .of_complete (exec_ret_of_append hs) rfl (((Keeps.refl _ s).setStack trivial rest).setPc trivial r),
      rfl, rfl, exists_raises_invalidPc rfl⟩

/-- CALL on a full stack (R114, D5). -/
theorem exec_call_of_full {s : State} (h : s.stackFull = true) (nnn : Addr12) :
    exec (.call nnn) s = raise (.callStackOverflow s.fetchAddress) s :=
  if_pos h

/-- CALL on a stack that is not full (R114). -/
theorem exec_call_of_not_full {s : State} (h : s.stackFull = false) (nnn : Addr12) :
    exec (.call nnn) s = complete ((s.push s.pc).setPc (addrOf nnn)) :=
  if_neg (Bool.eq_false_iff.1 h)

/-- Settles O14: the meaning is the error on a full stack, else one push and one write of PC. -/
theorem callPushesOrOverflows : Obligations.CallPushesOrOverflows := by
  unfold Obligations.CallPushesOrOverflows
  refine fun nnn => ⟨.of_wellFormed rfl (Word.toNat_ofNNN 0x2#4 nnn), fun s depth hd hlen => ?_, fun s hroom => ?_⟩
  · have hfull : s.stackFull = true := by simp [State.stackFull, hd, hlen]
    rw [exec_call_of_full hfull]
    exact ⟨_, .of_raise (Keeps.refl _ s)⟩
  · have hfull : s.stackFull = false := by
      rw [State.stackFull_eq_false_iff]
      intro capacity hc
      rcases hroom with hu | ⟨depth, hd, hlt⟩
      · cases hu.symm.trans hc
      · cases hd.symm.trans hc
        exact hlt
    have hk : Keeps { pc := True, stack := True } s ((s.push s.pc).setPc (addrOf nnn)) :=
      ((Keeps.refl _ s).setStack trivial _).setPc trivial _
    exact ⟨_, .of_complete (exec_call_of_not_full hfull nnn) rfl hk, toNat_addrOf nnn, rfl⟩

/-! ### Fixed points -/

/-- A step that writes PC back where it was leaves only its answer (R236). -/
theorem fixed_of_setPc_self {s : State} {a : Word} (ha : a = s.pc) (h : step s = complete (s.advancePc.setPc a)) :
    ∃ t, step s = .next t ∧ t.lastResult = some .ok ∧ t.faultRecord = s.faultRecord ∧ Keeps {} s t := by
  subst ha
  have hself : s.advancePc.setPc s.pc = s := rfl
  rw [hself] at h
  exact ⟨_, h, rfl, rfl, (Keeps.refl _ s).setResult .ok⟩

/-- A word of family F with last byte 0x0A is an Fx0A. -/
theorem exists_encode_ldVxK {w : Nat} (hf : w / 0x1000 = 0xF) (hk : w % 0x100 = 0x0A) :
    ∃ x, (encode (.ldVxK x)).toNat = w := by
  refine ⟨BitVec.ofNat 4 (w / 0x100), ?_⟩
  have hF : (0xF#4).toNat = 15 := rfl
  have hA : (0x0A#8).toNat = 10 := rfl
  rw [encode, Word.toNat_ofXKK, hF, hA, BitVec.toNat_ofNat]
  omega

/-- Settles O34: the jump writes the address it was fetched from, and Fx0A with no key takes back the fetch advance. -/
theorem fixedPointsOfStep : Obligations.FixedPointsOfStep := by
  unfold Obligations.FixedPointsOfStep
  rintro s hpc (hjp | ⟨hf, hk, hnone⟩)
  · have haddr : (BitVec.ofNat 12 s.pc.toNat).toNat = s.pc.toNat := by rw [BitVec.toNat_ofNat]; omega
    have hw : (encode (.jp (BitVec.ofNat 12 s.pc.toNat))).toNat = s.wordNumber := by
      rw [hjp, encode, Word.toNat_ofNNN, haddr]; rfl
    exact fixed_of_setPc_self (BitVec.eq_of_toNat_eq ((toNat_addrOf _).trans haddr))
      (step_of_decode hpc hw (decode_encode rfl))
  · obtain ⟨x, hw⟩ := exists_encode_ldVxK hf hk
    have hback : s.advancePc.pc - 2 = s.pc := s.fetchAddress_advancePc
    refine fixed_of_setPc_self hback ((step_of_decode hpc hw (decode_encode rfl)).trans ?_)
    exact exec_ldVxK_of_none_held (State.lowestKey_of_none_held (s := s.advancePc) hnone) x

end Sys2Proof.Machine
end

section
/-! SUPPORT. Logic and index arithmetic (41_register_ops.md R133 to R135, 42_addressing.md R154, R156): the sums, products and
digits of bytes as numbers. -/

namespace Sys2Proof.Machine

/-- Settles O18: each meaning is one write of Vx, by an operation on bits. -/
theorem logicLeavesFlag : Obligations.LogicLeavesFlag := by
  unfold Obligations.LogicLeavesFlag
  refine fun x y => ⟨.of_family8 0x1 rfl rfl, .of_family8 0x2 rfl rfl, .of_family8 0x3 rfl rfl, fun s => ⟨?_, ?_, ?_⟩⟩
  · obtain ⟨t, ht, hx⟩ := exists_completes_of_writeV (i := .orReg x y) (s := s) rfl
    exact ⟨t, ht, fun b => by rw [hx, BitVec.getLsbD_or]⟩
  · obtain ⟨t, ht, hx⟩ := exists_completes_of_writeV (i := .andReg x y) (s := s) rfl
    exact ⟨t, ht, fun b => by rw [hx, BitVec.getLsbD_and]⟩
  · obtain ⟨t, ht, hx⟩ := exists_completes_of_writeV (i := .xorReg x y) (s := s) rfl
    exact ⟨t, ht, fun b => by rw [hx, BitVec.getLsbD_xor]⟩

/-- Settles O25: the meaning is one write of I, by the sum modulo 65536. -/
theorem addIndexWraps : Obligations.AddIndexWraps := by
  unfold Obligations.AddIndexWraps
  refine fun x => ⟨.of_formatXKK 0xF 0x1E rfl rfl, fun s => ?_⟩
  obtain ⟨t, ht, hi⟩ := exists_completes_of_setI (i := .addI x) (s := s) rfl
  exact ⟨t, ht, by rw [hi, BitVec.toNat_add, toNat_zext16]⟩

/-- Five times a byte does not wrap. -/
theorem toNat_five_mul_zext16 (b : Byte) : (5#16 * zext16 b).toNat = 5 * b.toNat := by
  have := b.isLt
  have h5 : (5#16).toNat = 5 := rfl
  rw [BitVec.toNat_mul, toNat_zext16, h5]; omega

/-- Vx is its own digit up to 0x0F, and whenever FX29_WIDE is unmasked (R156). -/
theorem State.digitOf_eq_readV {s : State} {x : RegIx} (h : (s.readV x).toNat ≤ 0x0F ∨ s.params.fx29Wide = .unmasked) :
    s.digitOf x = s.readV x := by
  unfold State.digitOf
  split
  next => rfl
  next hm =>
    rcases h with hle | hu
    · exact if_pos hle
    · cases hu.symm.trans hm

/-- Above 0x0F the digit is Vx modulo 16 when FX29_WIDE is masked (R156, D8). -/
theorem State.toNat_digitOf_of_masked {s : State} {x : RegIx} (hgt : (s.readV x).toNat > 0x0F)
    (hm : s.params.fx29Wide = .masked) : (s.digitOf x).toNat = (s.readV x).toNat % 16 := by
  simp only [State.digitOf, hm]
  rw [if_neg (not_le.2 hgt)]
  exact s.keyIndex_eq_mod x

/-- Settles O26: the meaning is one write of I, by five times the digit. -/
theorem digitAddressIsFiveTimes : Obligations.DigitAddressIsFiveTimes := by
  unfold Obligations.DigitAddressIsFiveTimes
  refine fun x => ⟨.of_formatXKK 0xF 0x29 rfl rfl, fun s => ?_⟩
  obtain ⟨t, ht, hi⟩ := exists_completes_of_setI (i := .ldF x) (s := s) rfl
  refine ⟨t, ht, fun h => ?_, fun hgt hm => ?_⟩
  · rw [hi, toNat_five_mul_zext16, State.digitOf_eq_readV h]
  · rw [hi, toNat_five_mul_zext16, State.toNat_digitOf_of_masked hgt hm]

end Sys2Proof.Machine
end

section
/-! SUPPORT. Drawing without rows, and drawing twice (44_draw.md R171, R172). -/

namespace Sys2Proof.Machine

/-- A sprite without rows draws nothing (R171). -/
@[simp] theorem State.drawnSprite_zero (s : State) (x y : RegIx) :
    s.drawnSprite x y 0 = { fb := s.fb, collision := false } := rfl

/-- Settles O29: with no rows the draw is one write of VF. -/
theorem drawOfNoRowsClearsFlag : Obligations.DrawOfNoRowsClearsFlag := by
  unfold Obligations.DrawOfNoRowsClearsFlag
  refine fun x y => ⟨.of_wellFormed rfl (Word.toNat_ofNibbles 0xD#4 x y 0), fun s => ?_⟩
  exact exists_completes_of_writeV (exec_drw_of_fits fun hn => absurd hn (by decide))

/-- What a sprite covers depends on its origin, on I and on memory alone. -/
theorem spriteCovers_congr {s t : State} {x y : RegIx} {n : Nibble} (hmem : t.mem = s.mem) (hi : t.i = s.i)
    (hx : (t.readV x).toNat % 64 = (s.readV x).toNat % 64) (hy : (t.readV y).toNat % 32 = (s.readV y).toNat % 32)
    {py px : Nat} : SpriteCovers t x y n py px ↔ SpriteCovers s x y n py px := by
  simp only [SpriteCovers, hmem, hi, hx, hy]

/-- Two framebuffers that differ from a third in the same pixels are the same. -/
theorem Framebuffer.eq_of_same_changes {f g h : Framebuffer}
    (hfg : ∀ py px, Framebuffer.pixel f py px ≠ Framebuffer.pixel g py px ↔
      Framebuffer.pixel g py px ≠ Framebuffer.pixel h py px) : f = h := by
  refine Framebuffer.ext_pixel fun py px _ _ => ?_
  have hp := hfg py px
  revert hp
  cases Framebuffer.pixel f py px <;> cases Framebuffer.pixel g py px <;> cases Framebuffer.pixel h py px <;> decide

/-- Settles O30: the second draw covers the pixels the first did, so it toggles them back, and meets on exactly those
that the first turned on. -/
theorem drawTwiceRestores : Obligations.DrawTwiceRestores := by
  unfold Obligations.DrawTwiceRestores
  intro x y n s t hfits ht hx hy
  rw [exec_drw_of_fits hfits] at ht
  cases ht
  generalize htdef : (s.finishDraw (s.drawnSprite x y n)).setResult .ok = t at hx hy ⊢
  have hfb : t.fb = (s.drawnSprite x y n).fb := by rw [← htdef]; rfl
  have hmem : t.mem = s.mem := by rw [← htdef]; rfl
  have hi : t.i = s.i := by rw [← htdef]; rfl
  have hcovers {py px : Nat} : SpriteCovers t x y n py px ↔
      Framebuffer.pixel t.fb py px ≠ Framebuffer.pixel s.fb py px := by
    rw [spriteCovers_congr hmem hi hx hy, hfb, pixel_drawnSprite_ne]
  refine ⟨_, exec_drw_of_fits (hi ▸ hfits), rfl, ?_, ?_⟩
  · exact Framebuffer.eq_of_same_changes fun py px => pixel_drawnSprite_ne.trans hcovers
  · rw [State.readV_setResult, State.readV_VF_finishDraw, flagByte_eq_one, collision_drawnSprite]
    simp only [hcovers]
    refine exists_congr fun py => exists_congr fun px => ?_
    cases Framebuffer.pixel s.fb py px <;> cases Framebuffer.pixel t.fb py px <;> decide

end Sys2Proof.Machine
end

section
/-! SUPPORT. Bulk store and load (46_timers_misc.md R195 to R197): the outcomes of Fx55 and Fx65, and I after them. -/

namespace Sys2Proof.Machine

/-- I after a bulk access inside memory: as it was with the quirk, else past the last byte (R195, D20). -/
theorem State.toNat_i_advanceIndex {s : State} {x : RegIx} (h : s.i.toNat + x.toNat ≤ 0xFFF) :
    (s.advanceIndex x).i.toNat = if s.cfg.loadStoreQuirk = true then s.i.toNat else s.i.toNat + x.toNat + 1 := by
  rw [State.i_advanceIndex]
  cases s.cfg.loadStoreQuirk
  · have hsum : (s.i + BitVec.ofNat 16 (x.toNat + 1)).toNat = s.i.toNat + x.toNat + 1 := by
      rw [BitVec.toNat_add, BitVec.toNat_ofNat]; omega
    simpa using hsum
  · rfl

/-- Fx55 with a byte above 0xFFF (R196, D4). -/
theorem exec_storeRegs_of_outside {s : State} {x : RegIx} (h : s.i.toNat + x.toNat > 0xFFF) :
    exec (.storeRegs x) s = raise (.memoryAddressFault s.i (x.toNat + 1)) s := by
  rcases execStoreRegs_cases x s with ⟨-, hr⟩ | ⟨hfits, -⟩
  · exact hr
  · omega

/-- Fx55 with its bytes in memory (R196). -/
theorem exec_storeRegs_of_fits {s : State} {x : RegIx} (h : s.i.toNat + x.toNat ≤ 0xFFF) :
    exec (.storeRegs x) s =
      complete ({ s with mem := Memory.writeBytes s.mem s.indexAddress (s.regsUpTo x) }.advanceIndex x) := by
  rcases execStoreRegs_cases x s with ⟨hout, -⟩ | ⟨-, hr⟩
  · omega
  · exact hr

/-- The k-th byte of a bulk store is Vk (R196). -/
theorem State.getElem?_regsUpTo {s : State} {x k : RegIx} (h : k.toNat ≤ x.toNat) :
    (s.regsUpTo x)[k.toNat]? = some (s.readV k) := by
  have hk : k.toNat < (s.regsUpTo x).length := by rw [State.length_regsUpTo]; omega
  rw [List.getElem?_eq_getElem hk, State.getElem_regsUpTo, BitVec.ofNat_toNat, BitVec.setWidth_eq]

/-- Settles O36: the meaning is the fault, or one store of the registers and then I. -/
theorem bulkStoreWritesRegisters : Obligations.BulkStoreWritesRegisters := by
  unfold Obligations.BulkStoreWritesRegisters
  refine fun x => ⟨.of_formatXKK 0xF 0x55 rfl rfl, fun s hout => ?_, fun s hm hfits => ?_⟩
  · rw [exec_storeRegs_of_outside hout]
    exact ⟨_, .of_raise (Keeps.refl _ s)⟩
  · have ha : s.indexAddress + (s.regsUpTo x).length ≤ Config.memSize := by
      rw [State.length_regsUpTo]; exact Nat.succ_le_succ hfits
    refine ⟨_, .of_complete (exec_storeRegs_of_fits hfits) (State.faultRecord_advanceIndex _ x)
      (((Keeps.refl _ s).writeBytes hm ha fun a hin => ?_).advanceIndex (fun _ => trivial) x), fun k hk => ?_, ?_⟩
    · rwa [State.length_regsUpTo] at hin
    · rw [State.mem_setResult, State.mem_advanceIndex]
      exact Memory.read_writeBytes_add hm ha (State.getElem?_regsUpTo hk)
    · exact State.toNat_i_advanceIndex hfits

/-- Fx65 with a byte above 0xFFF (R197, D4). -/
theorem exec_loadRegs_of_outside {s : State} {x : RegIx} (h : s.i.toNat + x.toNat > 0xFFF) :
    exec (.loadRegs x) s = raise (.memoryAddressFault s.i (x.toNat + 1)) s := by
  rcases execLoadRegs_cases x s with ⟨-, hr⟩ | ⟨hfits, -⟩
  · exact hr
  · omega

/-- The bytes Fx65 loads (R197). -/
def State.loadedBytes (s : State) (x : RegIx) : List Byte :=
  (List.range (x.toNat + 1)).map fun k => Memory.read s.mem (s.indexAddress + k)

@[simp] theorem State.length_loadedBytes (s : State) (x : RegIx) : (s.loadedBytes x).length = x.toNat + 1 := by
  simp [State.loadedBytes]

/-- The k-th byte of a bulk load is the one at I + k (R197). -/
theorem State.getElem?_loadedBytes {s : State} {x k : RegIx} (h : k.toNat ≤ x.toNat) :
    (s.loadedBytes x)[k.toNat]? = some (Memory.read s.mem (s.i.toNat + k.toNat)) := by
  have hk : k.toNat < x.toNat + 1 := by omega
  simp [State.loadedBytes, State.indexAddress, hk]

/-- Fx65 with its bytes in memory (R197). -/
theorem exec_loadRegs_of_fits {s : State} {x : RegIx} (h : s.i.toNat + x.toNat ≤ 0xFFF) :
    exec (.loadRegs x) s = complete ((s.writeRegs (s.loadedBytes x)).advanceIndex x) := by
  rcases execLoadRegs_cases x s with ⟨hout, -⟩ | ⟨-, hr⟩
  · omega
  · exact hr

/-- Settles O37: the meaning is the fault, or one write of the registers and then I. -/
theorem bulkLoadReadsMemory : Obligations.BulkLoadReadsMemory := by
  unfold Obligations.BulkLoadReadsMemory
  refine fun x => ⟨.of_formatXKK 0xF 0x65 rfl rfl, fun s hout => ?_, fun s hfits => ?_⟩
  · rw [exec_loadRegs_of_outside hout]
    exact ⟨_, .of_raise (Keeps.refl _ s)⟩
  · refine ⟨_, .of_complete (exec_loadRegs_of_fits hfits) (State.faultRecord_advanceIndex _ x)
      (((Keeps.refl _ s).writeRegs fun r hr => ?_).advanceIndex (fun _ => trivial) x), fun k hk => ?_, ?_⟩
    · rw [State.length_loadedBytes] at hr
      exact Nat.le_of_lt_succ hr
    · rw [State.readV_setResult, State.readV_advanceIndex, State.readV_writeRegs, List.getD_eq_getElem?_getD,
        State.getElem?_loadedBytes hk]
      rfl
    · exact State.toNat_i_advanceIndex (s := s.writeRegs (s.loadedBytes x)) hfits

end Sys2Proof.Machine
end

section
/-! SUPPORT. Memory as data (20_memory.md R60, R66, R75): the word fetched after a store, and the canonical form as the one
list of its reading. -/

namespace Sys2Proof

/-- A fetched word has the byte at PC in bits 15:8 (R66). -/
theorem Word.toNat_ofBytes_div (hi lo : Byte) : (Word.ofBytes hi lo).toNat / 256 = hi.toNat := by
  have := lo.isLt
  rw [Word.toNat_ofBytes]; omega

/-- A fetched word has the byte at PC + 1 in bits 7:0 (R66). -/
theorem Word.toNat_ofBytes_mod (hi lo : Byte) : (Word.ofBytes hi lo).toNat % 256 = lo.toNat := by
  have := lo.isLt
  rw [Word.toNat_ofBytes]; omega

end Sys2Proof

namespace Sys2Proof.Machine

/-- Settles O58: the fetch reads the two bytes at PC after the store, each the stored one where the addresses meet. -/
theorem storeSeenByNextFetch : Obligations.StoreSeenByNextFetch := by
  unfold Obligations.StoreSeenByNextFetch
  intro s a b hm ha hpc
  have hread (a' : Nat) : Memory.read (Memory.write s.mem a b) a' = if a = a' then b else Memory.read s.mem a' := by
    simpa only [eq_comm] using Memory.read_write hm (Nat.lt_succ_of_le ha) b a'
  refine ⟨_, State.fetch_of_le hpc, ?_, ?_⟩
  · rw [Memory.readWord, Word.toNat_ofBytes_div, hread]
  · rw [Memory.readWord, Word.toNat_ofBytes_mod, hread]

/-- A listed byte is what its address reads as, where addresses rise. -/
theorem Memory.read_of_mem {m : Memory} (hp : m.Pairwise fun c d => c.1 < d.1) {c : Host.Cell} (hc : c ∈ m) :
    Memory.read m c.1 = c.2 := by
  induction m with
  | nil => cases hc
  | cons d m ih =>
    obtain ⟨hd, hp⟩ := List.pairwise_cons.1 hp
    rw [Memory.read_cons]
    rcases List.mem_cons.1 hc with rfl | hc
    · exact if_pos rfl
    · rw [if_neg (hd c hc).ne, ih hp hc]

/-- An address reads as unlisted, or as the byte listed for it. -/
theorem Memory.read_eq_unlisted_or_mem (m : Memory) (a : Nat) :
    Memory.read m a = Memory.unlisted a ∨ (a, Memory.read m a) ∈ m := by
  induction m with
  | nil => exact .inl rfl
  | cons d m ih =>
    rw [Memory.read_cons]
    by_cases hd : d.1 = a
    · subst hd
      rw [if_pos rfl]
      exact .inr List.mem_cons_self
    · rw [if_neg hd]
      exact ih.imp_right (List.mem_cons_of_mem d)

/-- A canonical memory lists exactly the bytes that differ from the unlisted reading. -/
theorem Memory.mem_iff_read {m : Memory} (hm : Memory.wf m) {c : Host.Cell} :
    c ∈ m ↔ Memory.read m c.1 = c.2 ∧ c.2 ≠ Memory.unlisted c.1 := by
  obtain ⟨hp, hcell⟩ := hm
  constructor
  · exact fun hc => ⟨Memory.read_of_mem hp hc, (hcell c hc).2⟩
  · rintro ⟨hread, hne⟩
    have h := Memory.read_eq_unlisted_or_mem m c.1
    rw [hread] at h
    exact h.resolve_left hne

/-- Settles O59: what a memory reads decides what it lists, and the rising addresses decide the order. -/
theorem canonicalMemoryExtensional : Obligations.CanonicalMemoryExtensional := by
  unfold Obligations.CanonicalMemoryExtensional
  intro m m' hm hm' h
  have hirrefl : Std.Irrefl fun c d : Host.Cell => c.1 < d.1 := ⟨fun c => lt_irrefl c.1⟩
  have hantisymm : Std.Antisymm fun c d : Host.Cell => c.1 < d.1 := ⟨fun _ _ hcd hdc => absurd hdc hcd.asymm⟩
  exact hm.1.eq_of_mem_iff hm'.1 fun c => by rw [Memory.mem_iff_read hm, Memory.mem_iff_read hm', h]

end Sys2Proof.Machine
end
